-- ==== Sys2Proof/Word.lean ====
section
/-! DEFINITION. The word types of the RLE codec core: bits, 8-bit records and bytes, 10-bit command and output words
(00_scope.md R5, R7; 30_encoding.md R45, R58). -/

namespace Sys2Proof

/-- A bit: `false` is 0 and `true` is 1 (R7). -/
abbrev Bit := Bool

/-- A byte of a stream, and a Run-Length Record: 8 bits, unsigned (R53). -/
abbrev Byte := BitVec 8

/-- A command word (R45). -/
abbrev CmdWord := BitVec 10

/-- An output transaction word (R58). -/
abbrev OutWord := BitVec 10

end Sys2Proof
end

