-- ==== Sys2Proof/Config.lean ====
section
/-! DEFINITION. What is fixed for the machine (00_scope.md R5) and its one free value. -/

namespace Sys2Proof

/-- `TAIL_POLICY`: what `SrcReadU(8)` does when 1 to 7 bits remain (00_scope.md R5; 20_memory.md R37). -/
inductive TailPolicy where
  /-- The read fails with `StreamExhausted`. The spec's default. -/
  | fault
  /-- The read returns the tail in the high-order positions, zeros below. -/
  | zeroFill
deriving DecidableEq, Repr

namespace Config

/-- `MAX_RUN`, the largest record value (R5). -/
def maxRun : Byte := 255#8

/-- The default of `TAIL_POLICY` (R5, R37). -/
def defaultTailPolicy : TailPolicy := .fault

/-- FREE VALUE (assumption 3). A command word is on the port when an `ERR` or a reset is taken, so that the command is
not executed. Was the word consumed all the same? R91: "The host must not assume it was consumed." The argument is
the counter `State.freeIx`, so every occasion has its own answer. -/
opaque unexecutedConsumed : Nat → Bool

end Config

end Sys2Proof
end

