-- ==== Sys2Proof/Syntax.lean ====
section
/-! DEFINITION. The command set: one constructor for each row of spec/opcode_table.json (30_encoding.md R62). -/

namespace Sys2Proof

/-- The five commands (R46, R62). -/
inductive Instr where
  /-- `START_C`: open a compress invocation (40_control.md R63). -/
  | startC
  /-- `START_E`: open an expand invocation (40_control.md R64). -/
  | startE
  /-- `ENC_BIT b`: consume one input bit (41_compress.md R67). -/
  | encBit (b : Bit)
  /-- `DEC_REC n`: consume one Run-Length Record (42_expand.md R76). -/
  | decRec (n : Byte)
  /-- `END`: the input is exhausted, flush and close (40_control.md R65). -/
  | endInput
deriving DecidableEq, Repr

end Sys2Proof
end

