-- ==== Sys2Proof/Machine/State.lean ====
section
/-! DEFINITION. The state: the block's four registers (10_state.md R13), its ports, the adapters and the host front end it
works with (20_memory.md), and what the outside world does next. -/

namespace Sys2Proof.Machine

/-- The run-state machine's register `phase` (R14). -/
inductive Phase where
  /-- `0b00`: no invocation open -/
  | idle
  /-- `0b01`: a compress invocation is open -/
  | runC
  /-- `0b10`: an expand invocation is open -/
  | runE
  /-- `0b11`: a fault was taken -/
  | faulted
deriving DecidableEq, Repr

/-- The fault cause register `cause` (R17). -/
inductive Cause where
  /-- `0b00` `NONE`: no fault since reset -/
  | noFault
  /-- `0b01` `STREAM_EXHAUSTED` -/
  | streamExhausted
  /-- `0b10` `IO_ERROR` -/
  | ioError
  /-- `0b11` `ILLEGAL_COMMAND` -/
  | illegalCommand
deriving DecidableEq, Repr

/-- The output transactions (30_encoding.md R58). -/
inductive Txn where
  /-- `WBIT(b)` = `SinkWriteBit(b)` -/
  | wbit (b : Bit)
  /-- `WREC(n)` = `SinkWriteU(n, 8)` -/
  | wrec (n : Byte)
  /-- `CLOSE` = `SinkClose()` -/
  | close
deriving DecidableEq, Repr

/-- The two operations (R1). -/
inductive Mode where
  | compress
  | expand
deriving DecidableEq, Repr

/-- The connected source adapter (20_memory.md R27): the bits not yet read, next one first, and its `TAIL_POLICY`
(R37; assumption 9). -/
structure Source where
  bits : List Bit
  policy : TailPolicy
deriving DecidableEq, Repr

/-- The connected sink adapter (20_memory.md R28). -/
structure Sink where
  /-- the transactions it has accepted, oldest first (R40) -/
  got : List Txn
  /-- it was shared between invocations or instances, so its output has no defined value (R106; assumption 7) -/
  shared : Bool
  /-- an invocation that used it was abandoned, by a fault or a reset while it was open, so what it holds is no result
  (60_exceptions.md R93; R101, R111; assumption 21) -/
  abandoned : Bool
deriving DecidableEq, Repr

/-- A sink "that has received nothing and is not closed" (R103). -/
def Sink.fresh : Sink := ⟨[], false, false⟩

/-- Where the host's front end loop stands (20_memory.md R29, R30; assumption 11). -/
inductive Front where
  /-- no front end runs: commands come from `inbox` only -/
  | off
  /-- it presents START next -/
  | starting (m : Mode)
  /-- it is in its while loop -/
  | looping (m : Mode)
deriving DecidableEq, Repr

/-- What may land between two output transactions of a step (60_exceptions.md R90; 70_reset_and_hazards.md R101). -/
inductive Arrival where
  | reset
  /-- the adapters drive this level on `ERR` -/
  | err (e : BitVec 2)
deriving DecidableEq, Repr

/-- What the outside world can do (assumption 2). -/
inductive Event where
  /-- the block comes to a transaction boundary with its inputs as they stand -/
  | boundary
  /-- the same, and `a` arrives once the step begun there has delivered `k` of its outputs (R90; assumption 6) -/
  | interrupt (k : Nat) (a : Arrival)
  /-- the host puts a word on the command port (R45) -/
  | present (w : CmdWord)
  /-- the host takes its word off the port again (R111; assumption 12) -/
  | withdraw
  /-- the adapters drive this level on `ERR` (R89; assumption 4) -/
  | driveErr (e : BitVec 2)
  /-- the reset event, with no step in progress (R101) -/
  | reset
  /-- the host connects a source and a fresh sink (R103 step 2; assumption 20) -/
  | connect (source : Source)
  /-- the host starts or stops its front end loop (R29, R30) -/
  | setFront (f : Front)
  /-- another invocation or instance drives the same sink (R42, R106; assumption 7) -/
  | shareSink
deriving DecidableEq, Repr

/-- The state of the block and of what it is connected to. -/
structure State where
  /-- register `phase` (R14) -/
  phase : Phase
  /-- register `cur` (R15) -/
  cur : Bit
  /-- register `runLen` (R16) -/
  runLen : Byte
  /-- register `cause` (R17) -/
  cause : Cause
  /-- the level on the `ERR` input (R89; assumption 4) -/
  err : BitVec 2
  /-- the word presented on the command port and not yet accepted (R45, R105) -/
  port : Option CmdWord
  /-- the source adapter (R27) -/
  source : Source
  /-- the sink adapter (R28) -/
  sink : Sink
  /-- the host front end (R29, R30) -/
  front : Front
  /-- what the outside world does next, oldest first (assumption 2) -/
  inbox : List Event
  /-- the counter of the free value `Config.unexecutedConsumed` (assumption 3) -/
  freeIx : Nat
deriving DecidableEq, Repr

/-- Ways a step can stop with a fault: none. Every fault of the spec is a state of the block, `FAULTED` with its cause
(60_exceptions.md R87, R88), so it is a next state and not a stop. Safe: nothing is left out. -/
inductive Fault where
deriving DecidableEq, Repr

/-- Ways a step can be refused. -/
inductive Refusal where
  /-- No meaning is written for this instruction. Raised by no arm: every command has its meaning. Safe. -/
  | notModelled (mnemonic : String)
  /-- The host presents a word while an earlier word stands on the port unaccepted. Raised by `Event.present` in
  Machine/Boundary.lean, by no command. R105: "A host that overwrites a command not yet accepted has no defined outcome;
  the model refuses such a host." Safe: no claim about such a host can be proved. -/
  | commandOverwritten
deriving DecidableEq, Repr

/-- The machine after reset: the four registers of 10_state.md R23; `ERR` at `0b00`, nothing on the port, fresh adapters
with an exhausted source, no front end and nothing to come (assumptions 4 and 14). -/
def State.reset : State where
  phase := .idle
  cur := false
  runLen := 0#8
  cause := .noFault
  err := 0#2
  port := none
  source := ⟨[], Config.defaultTailPolicy⟩
  sink := Sink.fresh
  front := .off
  inbox := []
  freeIx := 0

end Sys2Proof.Machine
end

