-- ==== Sys2Proof/Machine/Flags.lean ====
section
/-! DEFINITION. The codes of `phase` and `cause` and the `STATUS` port, the only flags a host can read (10_state.md R14, R17,
R18, R20), and the codes of the `ERR` input (60_exceptions.md R89). -/

namespace Sys2Proof.Machine

/-- The encoding of `phase` (R14). -/
def Phase.code : Phase → BitVec 2
  | .idle => 0b00#2
  | .runC => 0b01#2
  | .runE => 0b10#2
  | .faulted => 0b11#2

/-- The encoding of `cause` (R17). -/
def Cause.code : Cause → BitVec 2
  | .noFault => 0b00#2
  | .streamExhausted => 0b01#2
  | .ioError => 0b10#2
  | .illegalCommand => 0b11#2

/-- `STATUS = {runLen, 0b000, cur, cause, phase}` (R18). It is a function of the state: a read changes nothing. -/
def State.status (s : State) : BitVec 16 :=
  s.runLen ++ (0b000#3 ++ (BitVec.ofBool s.cur ++ (s.cause.code ++ s.phase.code)))

/-- The cause a level on `ERR` stands for: none, `STREAM_EXHAUSTED`, `IO_ERROR`, and the reserved `0b11`, which is taken
as `IO_ERROR` (R89). -/
def errCause (e : BitVec 2) : Cause :=
  if e = 0b00#2 then .noFault
  else if e = 0b01#2 then .streamExhausted
  else .ioError

/-- The level of an adapter's `StreamExhausted` on `ERR` (R85, R89). -/
def errStreamExhausted : BitVec 2 := 0b01#2

end Sys2Proof.Machine
end

