-- ==== Sys2Proof/Machine/Streams.lean ====
section
/-! DEFINITION. The streams and the two adapters' contracts: bit order, the sink's packing and padding, the source's reads
(00_scope.md R8; 20_memory.md R27 to R38). -/

namespace Sys2Proof.Machine

/-- The bits of a byte in serial order, bit 7 first (R8, R32). -/
def bitsOfByte (x : Byte) : List Bit :=
  [x.getLsbD 7, x.getLsbD 6, x.getLsbD 5, x.getLsbD 4, x.getLsbD 3, x.getLsbD 2, x.getLsbD 1, x.getLsbD 0]

/-- A byte string read as bits: bit `8j + t` is bit `7 - t` of byte `j` (R32). -/
def bitsOfBytes (xs : List Byte) : List Bit := xs.flatMap bitsOfByte

/-- The unsigned value of bits read in serial order, the first one most significant (R8). -/
def bitsValue (bs : List Bit) : Nat := bs.foldl (fun v b => 2 * v + b.toNat) 0

/-- At most 8 bits in serial order as a byte, completed with zeros in the low-order positions (R34, R37). -/
def byteOfBits (bs : List Bit) : Byte :=
  BitVec.ofNat 8 (bitsValue (bs ++ List.replicate (8 - bs.length) false))

/-- The sink's packing, with `held` the bits of the byte in progress (R33, R34). -/
def packFrom (held : List Bit) : List Bit → List Byte
  | [] => if held = [] then [] else [byteOfBits held]
  | b :: bs =>
    if held.length = 7 then byteOfBits (held ++ [b]) :: packFrom [] bs
    else packFrom (held ++ [b]) bs

/-- `pack(B)`: bit `k` lands in byte `k div 8` at position `7 - (k mod 8)`, and the last byte is padded with zeros
(R33, R34). -/
def pack (bs : List Bit) : List Byte := packFrom [] bs

/-- The bits a transaction contributes to the output: a record 8, bit 7 first, a bit one, `CLOSE` none (R33). -/
def Txn.bits : Txn → List Bit
  | .wbit b => [b]
  | .wrec n => bitsOfByte n
  | .close => []

/-- The 10-bit word of a transaction on the output port (30_encoding.md R58). -/
def Txn.word : Txn → OutWord
  | .wbit b => (0b01#2 ++ (BitVec.ofBool b).setWidth 8)
  | .wrec n => (0b10#2 ++ n)
  | .close => (0b11#2 ++ 0#8)

/-- The records of a list of transactions, in order. -/
def recordsOf : List Txn → List Byte
  | [] => []
  | .wrec n :: ts => n :: recordsOf ts
  | .wbit _ :: ts => recordsOf ts
  | .close :: ts => recordsOf ts

/-- The sink accepts transactions, in order (R40). -/
def Sink.accept (k : Sink) (ts : List Txn) : Sink := { k with got := k.got ++ ts }

/-- An invocation opens on this sink. One that has received something, or that an abandoned invocation has used, is no
fresh sink (R103 step 2; 60_exceptions.md R92): it is shared or reused, and R106 gives that no outcome (assumption 7). -/
def Sink.enter (k : Sink) : Sink := { k with shared := k.shared || !k.got.isEmpty || k.abandoned }

/-- The invocation on this sink ends by a fault or a reset; `isOpen` says whether one is open (R93, R101; assumption 21). -/
def Sink.abandonIf (k : Sink) (isOpen : Bool) : Sink := { k with abandoned := k.abandoned || isOpen }

/-- How far the sink's `SinkClose()` has come: not called, called last, or followed by more (R28; 93 I17). -/
inductive SinkStage where
  | isOpen
  | closed
  | reused
deriving DecidableEq, Repr

/-- The stage after these transactions. -/
def stageOf : List Txn → SinkStage
  | [] => .isOpen
  | .close :: [] => .closed
  | .close :: _ :: _ => .reused
  | .wbit _ :: ts => stageOf ts
  | .wrec _ :: ts => stageOf ts

/-- All bits the sink has received (R33). -/
def Sink.bits (k : Sink) : List Bit := k.got.flatMap Txn.bits

/-- The bytes the sink has written. Until `CLOSE` up to 7 trailing bits are held and not visible (R34 (c); 10_state.md
R22 (a); assumption 8); `CLOSE` pads and writes them. A shared or reused sink has no defined output (R106). Of an abandoned
invocation these bytes are all there is, and they are no result (60_exceptions.md R93). -/
def Sink.written (k : Sink) : Option (List Byte) :=
  if k.shared then none else
  match stageOf k.got with
  | .isOpen => some ((pack k.bits).take (k.bits.length / 8))
  | .closed => some (pack k.bits)
  | .reused => none

/-- The result of a successful invocation, which exists only after its `CLOSE` (70_reset_and_hazards.md R111), and never
where a fault or a reset has abandoned the invocation, not even one cut short past its `CLOSE` (60_exceptions.md R93). -/
def Sink.output (k : Sink) : Option (List Byte) :=
  if k.shared || k.abandoned then none else
  match stageOf k.got with
  | .isOpen => none
  | .closed => some (pack k.bits)
  | .reused => none

/-- `SrcIsExhausted()`: false while any bit remains (R27; 92_eei_decisions.md D9). -/
def Source.isExhausted (src : Source) : Bool := src.bits.isEmpty

/-- `SrcReadBit()`: the next bit; `none` is the failure `StreamExhausted` (R27). -/
def Source.readBit (src : Source) : Option (Bit × Source) :=
  match src.bits with
  | [] => none
  | b :: bs => some (b, { src with bits := bs })

/-- `SrcReadU(8)`: the next 8 bits, first one most significant (R27); `none` is the failure `StreamExhausted`. A tail of
1 to 7 bits is read as `TAIL_POLICY` says (R37; assumption 10). -/
def Source.readU8 (src : Source) : Option (Byte × Source) :=
  if 8 ≤ src.bits.length then
    some (byteOfBits (src.bits.take 8), { src with bits := src.bits.drop 8 })
  else if src.bits = [] then none
  else
    match src.policy with
    | .fault => none
    | .zeroFill => some (byteOfBits src.bits, { src with bits := [] })

end Sys2Proof.Machine
end

