-- ==== Sys2Proof/Machine/Ops.lean ====
section
/-! DEFINITION. The shared operations: emitting outputs, fault entry, the phase check every command makes, reset, and
taking an `ERR` (60_exceptions.md R87 to R91; 70_reset_and_hazards.md R101). There is no memory to read or write
(20_memory.md R25). -/

namespace Sys2Proof.Machine

/-- `emit`: the output transactions of the step, in order, accepted by the sink (00_scope.md R9; 20_memory.md R40;
assumption 15). -/
def State.emit (s : State) (ts : List Txn) : State := { s with sink := s.sink.accept ts }

/-- Is an invocation open (10_state.md R14)? -/
def State.isOpen (s : State) : Bool := s.phase == .runC || s.phase == .runE

/-- A fault or a reset ends the open invocation, if there is one, without success: its sink is marked (R93, R101;
70_reset_and_hazards.md R111; assumption 21). The mark is no transaction. -/
def State.abandonOpen (s : State) : State := { s with sink := s.sink.abandonIf s.isOpen }

/-- Fault entry, `raise Fault(c)` (R87): the first cause is kept, `cur` and `runLen` keep their values, nothing is
emitted. An open invocation has failed (R93). -/
def State.raise (s : State) (c : Cause) : State :=
  { s.abandonOpen with cause := if s.cause = .noFault then c else s.cause, phase := .faulted }

/-- The checks before a command executes, in the order of R66 and R91: in `FAULTED` it is refused without any effect
(R88), where the phase does not allow it `ILLEGAL_COMMAND` is raised (R84 (b)), else it has its effect `body`. -/
def State.guarded (s : State) (legal : Phase → Bool) (body : State → State) : State :=
  if s.phase = .faulted then s
  else if legal s.phase then body s
  else s.raise .illegalCommand

/-- A word that spells no command: refused in `FAULTED` (R88), else `ILLEGAL_COMMAND` (R51, R84 (a)). -/
def State.illegalWord (s : State) : State := s.guarded (fun _ => false) id

/-- The opening of an invocation, shared by `START_C` and `START_E` (R63, R64): the registers, and a note on the sink
whether it was fresh (assumption 7). -/
def State.openInvocation (s : State) (p : Phase) : State :=
  { s with phase := p, cur := false, runLen := 0#8, sink := s.sink.enter }

/-- The block accepts the word on its port: it is consumed (10_state.md R19; R105). -/
def State.acceptWord (s : State) : State := { s with port := none }

/-- A word on the port was not executed because an `ERR` or a reset was taken. Whether it was consumed is a free value
(R91; assumption 3). -/
def State.settlePort (s : State) : State :=
  match s.port with
  | none => s
  | some _ =>
    { s with port := if Config.unexecutedConsumed s.freeIx then none else s.port, freeIx := s.freeIx + 1 }

/-- A level on `ERR` is taken: `raise Fault(value)` (R89), which changes nothing in `FAULTED` (R88; assumption 5). -/
def State.raiseErr (s : State) (e : BitVec 2) : State :=
  if s.phase = .faulted then s else s.raise (errCause e)

/-- The `ERR` input is taken at a transaction boundary; a command presented with it is not executed (R91). -/
def State.takeErr (s : State) : State :=
  if s.err = 0#2 then s else (s.raiseErr s.err).settlePort

/-- The adapters drive `ERR`. The front end loop stops at an adapter error (R30). -/
def State.driveErr (s : State) (e : BitVec 2) : State :=
  { s with err := e, front := if e = 0#2 then s.front else .off }

/-- The reset values of the four registers (10_state.md R23; R101). Nothing else is the block's (assumption 13). -/
def State.resetRegisters (s : State) : State :=
  { s with phase := .idle, cur := false, runLen := 0#8, cause := .noFault }

/-- The reset event or an `ERR` lands (R90, R101). -/
def State.arrive (s : State) : Arrival → State
  | .reset => s.abandonOpen.resetRegisters.settlePort
  | .err e => (s.driveErr e).takeErr

/-- The outputs of a step from `s` whose completion is `t`: what the sink has accepted beyond what it had. -/
def outputsOf (s t : State) : List Txn := t.sink.got.drop s.sink.got.length

/-- A step from `s`, whose completion would be `t`, is cut short: the sink has a prefix of its outputs, its register
writes are not performed, and the arrival is taken (R90, R101). -/
def State.cutShort (s t : State) (k : Nat) (a : Arrival) : State :=
  (s.emit ((outputsOf s t).take k)).arrive a

/-- An arrival that stops a step: reset, or a non-zero `ERR`. -/
def Arrival.strikes : Arrival → Bool
  | .reset => true
  | .err e => e ≠ 0#2

end Sys2Proof.Machine
end

