-- ==== Sys2Proof/Machine/Control.lean ====
section
/-! DEFINITION. The control commands START_C, START_E and END (40_control.md R63 to R66). -/

namespace Sys2Proof.Machine

/-- `START_C` (R63), legal in `IDLE` only. -/
def execStartC (s : State) : Host.Outcome State Fault Refusal :=
  .next (s.guarded (· == .idle) (·.openInvocation .runC))

/-- `START_E` (R64), legal in `IDLE` only. -/
def execStartE (s : State) : Host.Outcome State Fault Refusal :=
  .next (s.guarded (· == .idle) (·.openInvocation .runE))

/-- The compress flush, `if runLen > 0: emit WREC(runLen)` (41_compress.md R70); `expand` has nothing pending
(42_expand.md R79). -/
def State.pendingRecord (s : State) : List Txn :=
  if s.phase = .runC ∧ s.runLen ≠ 0#8 then [.wrec s.runLen] else []

/-- The effect of `END` (R65). -/
def State.closeInvocation (s : State) : State :=
  { s.emit (s.pendingRecord ++ [.close]) with phase := .idle, cur := false, runLen := 0#8 }

/-- `END` (R65), legal in `RUN_C` and `RUN_E`. -/
def execEndInput (s : State) : Host.Outcome State Fault Refusal :=
  .next (s.guarded (fun p => p == .runC || p == .runE) State.closeInvocation)

end Sys2Proof.Machine
end

