-- ==== Sys2Proof/Machine/Operands.lean ====
section
/-! DEFINITION. The operand forms (30_encoding.md R47 to R50): a command has no operand, the input bit `b`, or the record
`n`. No command names a register (10_state.md R20). -/

namespace Sys2Proof.Machine

/-- The number of bits a record stands for: its unsigned value (R49, R53). -/
def recordLength (n : Byte) : Nat := n.toNat

/-- The outputs of `repeat n times: emit WBIT(v)` (42_expand.md R76). -/
def repeatBit (n : Byte) (v : Bit) : List Txn := List.replicate (recordLength n) (.wbit v)

end Sys2Proof.Machine
end

