-- ==== Sys2Proof/Machine/Decoder.lean ====
section
/-! DEFINITION. The decoder: DEC_REC (42_expand.md R76). -/

namespace Sys2Proof.Machine

/-- The effect of `DEC_REC n` (R76): `n` bits of the value `cur`, then `cur` flips, also when `n = 0`. -/
def State.writeRun (s : State) (n : Byte) : State :=
  { s.emit (repeatBit n s.cur) with cur := !s.cur }

/-- `DEC_REC n` (R76), legal in `RUN_E` only. -/
def execDecRec (n : Byte) (s : State) : Host.Outcome State Fault Refusal :=
  .next (s.guarded (· == .runE) (·.writeRun n))

end Sys2Proof.Machine
end

