-- ==== Sys2Proof/Machine/Encoder.lean ====
section
/-! DEFINITION. The encoder: ENC_BIT (41_compress.md R67, R75). -/

namespace Sys2Proof.Machine

/-- One input bit on the pair `(cur, runLen)`: the pair after it, and the records emitted (R67). The three cases are: the
counter counts; it is full and the run goes on, so the continuation marker is emitted and the bit opens the fresh
counter; the run ends. -/
def encodeBit (b : Bit) (cur : Bit) (runLen : Byte) : Bit × Byte × List Byte :=
  if b = cur then
    if runLen < Config.maxRun then (cur, runLen + 1#8, [])
    else (cur, 1#8, [Config.maxRun, 0#8])
  else (b, 1#8, [runLen])

/-- The effect of `ENC_BIT b` (R67). -/
def State.countBit (s : State) (b : Bit) : State :=
  match encodeBit b s.cur s.runLen with
  | (cur, runLen, recs) => { s.emit (recs.map .wrec) with cur := cur, runLen := runLen }

/-- `ENC_BIT b` (R67), legal in `RUN_C` only. -/
def execEncBit (b : Bit) (s : State) : Host.Outcome State Fault Refusal :=
  .next (s.guarded (· == .runC) (·.countBit b))

end Sys2Proof.Machine
end

