-- ==== Sys2Proof/Machine/Dispatch.lean ====
section
/-! DEFINITION. The one dispatch: an arm for each command. -/

namespace Sys2Proof.Machine

def exec (i : Instr) (s : State) : Host.Outcome State Fault Refusal :=
  match i with
  | .startC => Sys2Proof.Machine.execStartC s
  | .startE => Sys2Proof.Machine.execStartE s
  | .encBit b => Sys2Proof.Machine.execEncBit b s
  | .decRec n => Sys2Proof.Machine.execDecRec n s
  | .endInput => Sys2Proof.Machine.execEndInput s

end Sys2Proof.Machine
end

