-- ==== Sys2Proof/WellFormed.lean ====
section
/-! DEFINITION. Which commands are well formed. A command of `Instr` carries operands of exactly the width of its payload
field, so the checks that can fail are those on a WRITTEN command, a line of the assembly syntax, whose operands are
numbers (30_encoding.md R59, R60). -/

namespace Sys2Proof

/-- The operands fit the payload fields of R48 and R49. True of every `Instr`, by the types of its operands
(Laws/Encoding.lean, `Instr.wf_all`). -/
def Instr.wf : Instr → Bool
  | .startC => true
  | .startE => true
  | .encBit b => b.toNat ≤ 1
  | .decRec n => n.toNat ≤ 255
  | .endInput => true

/-- A line of the assembly syntax, commands and pseudo-instructions (R59, R60), before its operands are checked. -/
inductive Line where
  /-- `start.c` -/
  | startC
  /-- `start.e` -/
  | startE
  /-- `bit B` -/
  | bit (b : Nat)
  /-- `rec N` -/
  | record (n : Nat)
  /-- `end` -/
  | endInput
  /-- `bits B, K`: K copies of `bit B` -/
  | bits (b k : Nat)
  /-- `byte X`: the eight bits of X, most significant first -/
  | byte (x : Nat)
  /-- `recs N1, ..., Nk` -/
  | recs (ns : List Nat)
  /-- `erecs X1, ..., Xk`: the same as `recs` -/
  | erecs (xs : List Nat)
deriving DecidableEq, Repr

/-- "An operand out of range is an assembly error" (R59): the ranges R59 and R60 give. -/
def Line.wf : Line → Bool
  | .startC => true
  | .startE => true
  | .bit b => b ≤ 1
  | .record n => n ≤ 255
  | .endInput => true
  | .bits b _ => b ≤ 1
  | .byte x => x ≤ 255
  | .recs ns => ns.all (· ≤ 255)
  | .erecs xs => xs.all (· ≤ 255)

end Sys2Proof
end

