-- ==== Sys2Proof/Decode.lean ====
section
/-! DEFINITION. The decoder of the command word, total on every 10-bit word, and the encoder (30_encoding.md R45 to R52). -/

namespace Sys2Proof

/-- Why a word spells no command (R51): the class whose reserved payload bits are not all 0. -/
inductive Reserved where
  /-- `op = 0b00` with `payload[7:1] != 0` (R47) -/
  | start
  /-- `op = 0b01` with `payload[7:1] != 0` (R48) -/
  | bit
  /-- `op = 0b11` with `payload != 0` (R50) -/
  | endInput
deriving DecidableEq, Repr

/-- `cmd[9:8]` (R45). -/
def opField (cmd : CmdWord) : BitVec 2 := cmd.extractLsb' 8 2

/-- `cmd[7:0]` (R45). -/
def payloadField (cmd : CmdWord) : Byte := cmd.extractLsb' 0 8

/-- `payload[7:1]`, reserved in START and BIT words (R47, R48). -/
def payloadReserved (p : Byte) : BitVec 7 := p.extractLsb' 1 7

/-- The decode function of R52. -/
def decode (cmd : CmdWord) : Except Reserved Instr :=
  let p := payloadField cmd
  if opField cmd = 0b00#2 then
    if payloadReserved p = 0#7 then
      if p.getLsbD 0 then .ok .startE else .ok .startC
    else .error .start
  else if opField cmd = 0b01#2 then
    if payloadReserved p = 0#7 then .ok (.encBit (p.getLsbD 0)) else .error .bit
  else if opField cmd = 0b10#2 then
    .ok (.decRec p)
  else
    if p = 0#8 then .ok .endInput else .error .endInput

/-- A word from its two fields, `{op, payload}` (R45). -/
def packFields (op : BitVec 2) (payload : Byte) : CmdWord := op ++ payload

/-- The encodings of R47 to R50. -/
def encode : Instr → CmdWord
  | .startC => packFields 0b00#2 0#8
  | .startE => packFields 0b00#2 1#8
  | .encBit b => packFields 0b01#2 ((BitVec.ofBool b).setWidth 8)
  | .decRec n => packFields 0b10#2 n
  | .endInput => packFields 0b11#2 0#8

/-- The command word of a table row: its 10 bits stand at the bottom of the whole bytes the table gives it, and every bit
above them is 0 (assumption 16). A number with a bit set there fits no command port. -/
def tableWord (nbits w : Nat) : Option CmdWord :=
  if w % 2 ^ nbits < 1024 then some (BitVec.ofNat 10 (w % 2 ^ nbits)) else none

/-- What the decoder reads from the word of a table row. -/
def decodeTableWord (nbits w : Nat) : Option Instr :=
  match tableWord nbits w with
  | none => none
  | some cmd =>
    match decode cmd with
    | .ok i => some i
    | .error _ => none

end Sys2Proof
end

