-- ==== Sys2Proof/Machine/FrontEnd.lean ====
section
/-! DEFINITION. The host's front end loops (20_memory.md R29, R30) and its mode selector (60_exceptions.md R99). -/

namespace Sys2Proof.Machine

/-- The host's selector: `-` is compress, `+` is expand, and on any other the host presents no command (R99). -/
def Mode.ofSelector (c : Char) : Option Mode :=
  if c = '-' then some .compress else if c = '+' then some .expand else none

/-- The command that opens an invocation of this mode (R29, R30). -/
def Mode.start : Mode → Instr
  | .compress => .startC
  | .expand => .startE

/-- The host puts a command on the port. -/
def State.presentCommand (s : State) (i : Instr) : State := { s with port := some (encode i) }

/-- The input is exhausted: the loop ends and `END` is presented (R29, R30). -/
def State.presentEnd (s : State) : State := { s.presentCommand .endInput with front := .off }

/-- One round of `front_compress` (R29). The last case, a failed read, is not reached: the loop checks exhaustion first. -/
def State.frontCompress (s : State) : State :=
  if s.source.isExhausted then s.presentEnd
  else
    match s.source.readBit with
    | some (b, src) => { s.presentCommand (.encBit b) with source := src }
    | none => s.driveErr errStreamExhausted

/-- One round of `front_expand` (R30). A failed read of a tail goes to `ERR` and the loop stops (R37, R85). -/
def State.frontExpand (s : State) : State :=
  if s.source.isExhausted then s.presentEnd
  else
    match s.source.readU8 with
    | some (n, src) => { s.presentCommand (.decRec n) with source := src }
    | none => s.driveErr errStreamExhausted

/-- The front end's turn: the port is empty and the block waits (assumption 11). With no front end nothing happens: the
block waits, and all its state is held (R100). -/
def State.frontTurn (s : State) : State :=
  match s.front with
  | .off => s
  | .starting m => { s.presentCommand m.start with front := .looping m }
  | .looping .compress => s.frontCompress
  | .looping .expand => s.frontExpand

end Sys2Proof.Machine
end

