-- ==== Sys2Proof/Machine/Boundary.lean ====
section
/-! DEFINITION. A transaction boundary of the block and the acts of the outside world (60_exceptions.md R89 to R91;
70_reset_and_hazards.md R101 to R106). -/

namespace Sys2Proof.Machine

/-- Executing a command word: the decoder's verdict, then the command (30_encoding.md R51, R52; R91 (4) to (6)). -/
def execWord (w : CmdWord) (s : State) : Host.Outcome State Fault Refusal :=
  match decode w with
  | .ok i => exec i s
  | .error _ => .next s.illegalWord

/-- One transaction boundary, in the order of R91: a non-zero `ERR` is taken; else the word on the port is accepted and
executed; else the block waits, and the host front end has its turn. -/
def boundary (s : State) : Host.Outcome State Fault Refusal :=
  if s.err ≠ 0#2 then .next s.takeErr
  else
    match s.port with
    | some w => execWord w s.acceptWord
    | none => .next s.frontTurn

/-- A boundary whose step is cut short by `a` after `k` outputs (R90, R101). Where no step begins there, the arrival lands
right after the boundary; an `ERR` of `0b00` stops nothing (assumption 6). -/
def boundaryCut (k : Nat) (a : Arrival) (s : State) : Host.Outcome State Fault Refusal :=
  match boundary s with
  | .next t =>
    if s.err = 0#2 ∧ s.port.isSome ∧ a.strikes then .next (s.acceptWord.cutShort t k a)
    else .next (t.arrive a)
  | .fault f => .fault f
  | .refused r => .refused r

/-- One event of the outside world. -/
def onEvent (ev : Event) (s : State) : Host.Outcome State Fault Refusal :=
  match ev with
  | .boundary => boundary s
  | .interrupt k a => boundaryCut k a s
  | .present w => if s.port.isSome then .refused .commandOverwritten else .next { s with port := some w }
  | .withdraw => .next { s with port := none }
  | .driveErr e => .next (s.driveErr e)
  | .reset => .next (s.arrive .reset)
  | .connect src => .next { s with source := src, sink := ⟨[], s.isOpen, false⟩ }
  | .setFront f => .next { s with front := f }
  | .shareSink => .next { s with sink := { s.sink with shared := true } }

/-- `s` with the word of a table row on the command port, as the next thing the block meets: `ERR` quiet, and the next
event a boundary (assumption 1). A number that fits no command port leaves the port empty. -/
def State.withCommand (s : State) (cmd : Option CmdWord) : State :=
  { s with port := cmd, err := 0#2, inbox := .boundary :: s.inbox }

end Sys2Proof.Machine
end

