-- ==== Sys2Proof/Machine/Step.lean ====
section
/-! DEFINITION. One step: the next event of the outside world; when none is left, the block comes to its next transaction
boundary with its inputs as they stand (00_scope.md R6; assumption 2). -/

namespace Sys2Proof.Machine

def step (s : State) : Host.Outcome State Fault Refusal :=
  match s.inbox with
  | [] => boundary s
  | ev :: rest => onEvent ev { s with inbox := rest }

/-- `s` with the command word of a table row placed where the next step takes its command (10_state.md R19). -/
def State.withFetchWord (s : State) (nbits w : Nat) : State := s.withCommand (tableWord nbits w)

end Sys2Proof.Machine
end

