-- ==== Sys2Proof/Machine/Assembly.lean ====
section
/-! DEFINITION. The assembly and listing syntax (30_encoding.md R59 to R61; assumption 19). Text is a list of characters. -/

namespace Sys2Proof.Machine

/-- Why a line is no command. -/
inductive AsmError where
  /-- its first word is no command or pseudo-instruction -/
  | unknownMnemonic
  /-- an operand is no number, or their count is wrong -/
  | badOperands
  /-- "An operand out of range is an assembly error" (R59) -/
  | outOfRange
deriving DecidableEq, Repr

/-- The commands a checked line stands for (R59, R60). -/
def expansionOf : Line → List Instr
  | .startC => [.startC]
  | .startE => [.startE]
  | .bit b => [.encBit (b == 1)]
  | .record n => [.decRec (BitVec.ofNat 8 n)]
  | .endInput => [.endInput]
  | .bits b k => List.replicate k (.encBit (b == 1))
  | .byte x => (bitsOfByte (BitVec.ofNat 8 x)).map .encBit
  | .recs ns => ns.map (fun n => .decRec (BitVec.ofNat 8 n))
  | .erecs xs => xs.map (fun n => .decRec (BitVec.ofNat 8 n))

/-- Assembling a line: its operands are checked first, so it never turns into an illegal word (R59). -/
def assembleLine (l : Line) : Except AsmError (List CmdWord) :=
  if l.wf then .ok ((expansionOf l).map encode) else .error .outOfRange

/-- Assembling lines in order; the first error stops. -/
def assemble : List Line → Except AsmError (List CmdWord)
  | [] => .ok []
  | l :: ls =>
    match assembleLine l, assemble ls with
    | .ok ws, .ok rest => .ok (ws ++ rest)
    | .error e, _ => .error e
    | .ok _, .error e => .error e

/-- A blank between words. -/
def isBlank (c : Char) : Bool := c == ' ' || c == '\t'

/-- `;` starts a comment to the end of the line (R59). -/
def stripComment (cs : List Char) : List Char := cs.takeWhile (· != ';')

/-- Without the blanks at both ends. -/
def trimBlanks (cs : List Char) : List Char := ((cs.dropWhile isBlank).reverse.dropWhile isBlank).reverse

/-- The operands of a line: separated by commas. -/
def splitCommas : List Char → List (List Char)
  | [] => [[]]
  | c :: cs =>
    match splitCommas cs with
    | [] => [[c]]
    | w :: ws => if c == ',' then [] :: w :: ws else (c :: w) :: ws

/-- The value of a digit in a base up to 16. -/
def digitValue (base : Nat) (c : Char) : Option Nat :=
  let v :=
    if '0'.toNat ≤ c.toNat ∧ c.toNat ≤ '9'.toNat then some (c.toNat - '0'.toNat)
    else if 'a'.toNat ≤ c.toNat ∧ c.toNat ≤ 'f'.toNat then some (c.toNat - 'a'.toNat + 10)
    else if 'A'.toNat ≤ c.toNat ∧ c.toNat ≤ 'F'.toNat then some (c.toNat - 'A'.toNat + 10)
    else none
  match v with
  | none => none
  | some d => if d < base then some d else none

/-- Digits in a base, after the value `v` of those before them. -/
def digitsValue (base v : Nat) : List Char → Option Nat
  | [] => some v
  | c :: cs =>
    match digitValue base c with
    | none => none
    | some d => digitsValue base (base * v + d) cs

/-- A number, decimal or `0x` hex (R59). -/
def parseNumber : List Char → Option Nat
  | [] => none
  | '0' :: 'x' :: c :: cs => digitsValue 16 0 (c :: cs)
  | c :: cs => digitsValue 10 0 (c :: cs)

/-- All of them numbers, or none. -/
def parseNumbers : List (List Char) → Option (List Nat)
  | [] => some []
  | w :: ws =>
    match parseNumber (trimBlanks w), parseNumbers ws with
    | some n, some ns => some (n :: ns)
    | none, _ => none
    | some _, none => none

/-- The line a mnemonic and its operands stand for (R59, R60). -/
def lineOf (mnemonic : List Char) (operands : List Nat) : Except AsmError Line :=
  if mnemonic = ['s', 't', 'a', 'r', 't', '.', 'c'] then
    match operands with
    | [] => .ok .startC
    | _ :: _ => .error .badOperands
  else if mnemonic = ['s', 't', 'a', 'r', 't', '.', 'e'] then
    match operands with
    | [] => .ok .startE
    | _ :: _ => .error .badOperands
  else if mnemonic = ['e', 'n', 'd'] then
    match operands with
    | [] => .ok .endInput
    | _ :: _ => .error .badOperands
  else if mnemonic = ['b', 'i', 't'] then
    match operands with
    | [b] => .ok (.bit b)
    | _ => .error .badOperands
  else if mnemonic = ['r', 'e', 'c'] then
    match operands with
    | [n] => .ok (.record n)
    | _ => .error .badOperands
  else if mnemonic = ['b', 'i', 't', 's'] then
    match operands with
    | [b, k] => .ok (.bits b k)
    | _ => .error .badOperands
  else if mnemonic = ['b', 'y', 't', 'e'] then
    match operands with
    | [x] => .ok (.byte x)
    | _ => .error .badOperands
  else if mnemonic = ['r', 'e', 'c', 's'] then
    match operands with
    | [] => .error .badOperands
    | n :: ns => .ok (.recs (n :: ns))
  else if mnemonic = ['e', 'r', 'e', 'c', 's'] then
    match operands with
    | [] => .error .badOperands
    | x :: xs => .ok (.erecs (x :: xs))
  else .error .unknownMnemonic

/-- One line of text: `none` where it holds no command (R59). -/
def parseLine (cs : List Char) : Except AsmError (Option Line) :=
  let body := trimBlanks (stripComment cs)
  let mnemonic := body.takeWhile (fun c => !isBlank c)
  let rest := trimBlanks (body.dropWhile (fun c => !isBlank c))
  if mnemonic = [] then .ok none
  else
    match (if rest = [] then some [] else parseNumbers (splitCommas rest)) with
    | none => .error .badOperands
    | some ns =>
      match lineOf mnemonic ns with
      | .ok l => .ok (some l)
      | .error e => .error e

/-- The words of one line of text. -/
def assembleText (cs : List Char) : Except AsmError (List CmdWord) :=
  match parseLine cs with
  | .error e => .error e
  | .ok none => .ok []
  | .ok (some l) => assembleLine l

/-- A number in decimal. -/
def decimal (n : Nat) : List Char := Nat.toDigits 10 n

/-- A command in the assembly syntax (R59). -/
def asmOf : Instr → List Char
  | .startC => ['s', 't', 'a', 'r', 't', '.', 'c']
  | .startE => ['s', 't', 'a', 'r', 't', '.', 'e']
  | .encBit b => ['b', 'i', 't', ' '] ++ decimal b.toNat
  | .decRec n => ['r', 'e', 'c', ' '] ++ decimal n.toNat
  | .endInput => ['e', 'n', 'd']

/-- A transaction in the listing syntax (R61). -/
def Txn.listing : Txn → List Char
  | .wbit b => ['w', 'b', 'i', 't', ' '] ++ decimal b.toNat
  | .wrec n => ['w', 'r', 'e', 'c', ' '] ++ decimal n.toNat
  | .close => ['c', 'l', 'o', 's', 'e']

/-- A run of `k` equal bits in the listing syntax, `wbit B x K` (R61). -/
def listingRun (b : Bit) (k : Nat) : List Char := (Txn.wbit b).listing ++ [' ', 'x', ' '] ++ decimal k

/-- A hex digit of the listing. -/
def hexDigit (d : Nat) : Char := if d < 10 then Char.ofNat (48 + d) else Char.ofNat (55 + d)

/-- A byte in two hex digits. -/
def hexByte (x : Byte) : List Char := [hexDigit (x.toNat / 16), hexDigit (x.toNat % 16)]

/-- Sink bytes in hex in brackets, for example `[0E 00]` (R61). -/
def listingBytes (xs : List Byte) : List Char := ['['] ++ [' '].intercalate (xs.map hexByte) ++ [']']

end Sys2Proof.Machine
end

