-- ==== Sys2Proof/Machine/Codec.lean ====
section
/-! DEFINITION. The two operations as pure functions, with their closed forms and the canonical form
(30_encoding.md R55; 41_compress.md R72, R73; 42_expand.md R80). -/

namespace Sys2Proof.Machine

/-- The encoder over a bit list, from the pair `(cur, runLen)`: the left fold of R67, then the flush of R70. -/
def compressFrom (cur : Bit) (runLen : Byte) : List Bit → List Byte
  | [] => if runLen ≠ 0#8 then [runLen] else []
  | b :: bs =>
    match encodeBit b cur runLen with
    | (cur', runLen', recs) => recs ++ compressFrom cur' runLen' bs

/-- `compress(S)`, which starts at `(0, 0)` (R72). -/
def compress (bs : List Bit) : List Byte := compressFrom false 0#8 bs

/-- The maximal runs of a bit list, of alternating value starting with `v`: the first is 0 when the list starts with the
other value (R73). -/
def runsFrom (v : Bit) : List Bit → List Nat
  | [] => []
  | b :: bs =>
    let runs := match runsFrom b bs with
      | [] => [1]
      | l :: ls => (l + 1) :: ls
    if b = v then runs else 0 :: runs

/-- `enc(L)`: a run as `[255, 0]^q ++ [L - 255*q]` with `q = floor((L-1)/255)`, and `enc(0) = [0]` (R73; R56). -/
def encodeRun (l : Nat) : List Byte :=
  (List.replicate ((l - 1) / 255) ([255#8, 0#8] : List Byte)).flatten ++ [BitVec.ofNat 8 (l - 255 * ((l - 1) / 255))]

/-- The closed form of `compress` by runs (R73). -/
def compressByRuns (bs : List Bit) : List Byte := (runsFrom false bs).flatMap encodeRun

/-- The decoder over a record list, from `cur` (R76). -/
def expandFrom (cur : Bit) : List Byte → List Bit
  | [] => []
  | n :: ns => List.replicate n.toNat cur ++ expandFrom (!cur) ns

/-- `expand(E)`, which starts at 0 (R80). -/
def expand (es : List Byte) : List Bit := expandFrom false es

/-- The value record `i` stands for, `i mod 2` (R54, R77). -/
def alternation (i : Nat) : Bit := i % 2 == 1

/-- The closed form of `expand`, `concat([(i mod 2)^E[i] for i in 0 .. len(E)-1])` (R80). -/
def expandByIndex (es : List Byte) : List Bit :=
  (es.zipIdx.map (fun (n, i) => List.replicate n.toNat (alternation i))).flatten

/-- Canonical, clause (b) of R55 for the records that follow `previous`. -/
def zerosContinue (previous : Byte) : List Byte → Bool
  | [] => true
  | n :: ns => (n ≠ 0#8 || previous == 255#8) && zerosContinue n ns

/-- A canonical stream: empty, or the last record is not 0 and every 0 record after the first follows a 255 (R55). -/
def canonical : List Byte → Bool
  | [] => true
  | n :: ns => (n :: ns).getLast? ≠ some 0#8 && zerosContinue n ns

end Sys2Proof.Machine
end

