-- ==== Sys2Proof/Machine/Invocation.lean ====
section
/-! DEFINITION. Command sequences: an invocation from START to END as the host presents it (41_compress.md R72; 42_expand.md
R80; 70_reset_and_hazards.md R103). -/

namespace Sys2Proof.Machine

/-- Commands executed one after another (20_memory.md R40). -/
def execAll (is : List Instr) (s : State) : Host.Outcome State Fault Refusal :=
  match is with
  | [] => .next s
  | i :: rest =>
    match exec i s with
    | .next t => execAll rest t
    | .fault f => .fault f
    | .refused r => .refused r

/-- `START_C ; ENC_BIT S[0] ; ... ; END` (R72). -/
def compressCommands (bs : List Bit) : List Instr := .startC :: bs.map .encBit ++ [.endInput]

/-- `START_E ; DEC_REC E[0] ; ... ; END` (R80). -/
def expandCommands (es : List Byte) : List Instr := .startE :: es.map .decRec ++ [.endInput]

/-- `k` steps of the machine. -/
def runSteps : Nat → State → Host.Outcome State Fault Refusal
  | 0, s => .next s
  | k + 1, s =>
    match step s with
    | .next t => runSteps k t
    | .fault f => .fault f
    | .refused r => .refused r

/-- The host boots an invocation: fresh adapters, `ERR` quiet, an empty port and nothing else to come, with the front end
of this mode about to start (R103 steps 2 to 4). -/
def State.boot (s : State) (m : Mode) (src : Source) : State :=
  { s with source := src, sink := Sink.fresh, err := 0#2, port := none, inbox := [], front := .starting m }

end Sys2Proof.Machine
end

