-- ==== Sys2Proof/Safety.lean ====
section
/-! DEFINITION. What counts as a good state and a successful invocation, in the terms claims use (10_state.md R21;
70_reset_and_hazards.md R111, R112). -/

namespace Sys2Proof.Machine

/-- The invariants of R21 that speak of one state: (a), (c), (e) and (f). Clause (d), `runLen <= 255`, is the width of
`runLen`; the clauses on the number of commands since START are stated over command sequences. -/
structure StateInv (s : State) : Prop where
  /-- (a) In `IDLE`, `cur = 0` and `runLen = 0`. -/
  idle_clear : s.phase = .idle → s.cur = false ∧ s.runLen = 0#8
  /-- (c) In `RUN_C`, `cur = 1` implies `runLen >= 1`. -/
  runC_counted : s.phase = .runC → s.cur = true → 1 ≤ s.runLen.toNat
  /-- (e) In `RUN_E`, `runLen = 0`. -/
  runE_unused : s.phase = .runE → s.runLen = 0#8
  /-- (f) `cause = NONE` if and only if `phase != FAULTED`. -/
  cause_faulted : s.cause = .noFault ↔ s.phase ≠ .faulted

/-- Nothing but the block's registers and its sink differs: what no command touches, the ports, the source, the host's
front end and what is still to come. -/
structure SameSurroundings (s t : State) : Prop where
  err : t.err = s.err
  port : t.port = s.port
  source : t.source = s.source
  front : t.front = s.front
  inbox : t.inbox = s.inbox
  freeIx : t.freeIx = s.freeIx

/-- Fault entry with cause `c` leads from `s` to `t` (60_exceptions.md R87): the first cause is kept, `phase` is `FAULTED`,
`cur` and `runLen` keep their values, and no output is emitted. (That the sink of an open invocation is then marked as
abandoned is the model's own, assumption 21, and is said apart.) -/
structure FaultEntry (s t : State) (c : Cause) : Prop where
  phase : t.phase = .faulted
  cause : t.cause = if s.cause = .noFault then c else s.cause
  cur : t.cur = s.cur
  runLen : t.runLen = s.runLen
  got : t.sink.got = s.sink.got
  shared : t.sink.shared = s.sink.shared

/-- The word is reserved (30_encoding.md R51): START or BIT with `payload[7:1] != 0`, or END with `payload != 0`. -/
def ReservedWord (w : CmdWord) : Prop :=
  (w.toNat / 256 ≤ 1 ∧ 2 ≤ w.toNat % 256) ∨ (w.toNat / 256 = 3 ∧ w.toNat % 256 ≠ 0)

/-- The class `op` of a command word is `ILLEGAL` in the phase (40_control.md R66; 60_exceptions.md R84 (b)). -/
def IllegalIn (p : Phase) (op : Nat) : Prop :=
  (p = .idle ∧ op ≠ 0) ∨ (p = .runC ∧ (op = 0 ∨ op = 2)) ∨ (p = .runE ∧ (op = 0 ∨ op = 1))

/-- The next event is a reset, between commands or inside a step (70_reset_and_hazards.md R101). -/
def ResetNext (s : State) : Prop :=
  ∃ rest, s.inbox = .reset :: rest ∨ ∃ k, s.inbox = .interrupt k .reset :: rest

/-- The most output transactions one command can make (70_reset_and_hazards.md R110). -/
def maxTransfers : Instr → Nat
  | .startC => 0
  | .startE => 0
  | .encBit _ => 2
  | .decRec _ => 255
  | .endInput => 2

/-- The end of a successful invocation whose sink output is `bytes`: back in `IDLE` with no fault recorded, and the
output of a sink that has accepted `CLOSE` and whose invocation no fault or reset has abandoned (R111, R112;
60_exceptions.md R93). -/
structure Succeeded (s : State) (bytes : List Byte) : Prop where
  idle : s.phase = .idle
  noFault : s.cause = .noFault
  result : s.sink.output = some bytes

end Sys2Proof.Machine
end

