-- ==== Sys2Proof/Certificates/Slice0/Obligations.lean ====
section
/-! DEFINITION. The statements for the provers: the rules of the spec that say what the block does. -/

open Sys2Proof Sys2Proof.Machine

/-! ## Encodings -/

/-- 30_encoding.md R45 to R52: decoding inverts encoding, and each word has one meaning. -/
def Obligations.DecodeEncodeAgree : Prop :=
  (∀ i : Instr, i.wf = true → decode (encode i) = .ok i) ∧
  (∀ (w : CmdWord) (i : Instr), decode w = .ok i → encode i = w)

/-- 30_encoding.md R47 to R50: words of every family decode to the commands they stand for. -/
def Obligations.DecodeWrittenWords : Prop :=
  decode 0b0000000000 = .ok .startC ∧ decode 0b0000000001 = .ok .startE ∧
  decode 0b0100000000 = .ok (.encBit false) ∧ decode 0b0100000001 = .ok (.encBit true) ∧
  decode 0b1000000000 = .ok (.decRec 0) ∧ decode 0b1010100000 = .ok (.decRec 160) ∧
  decode 0b1011111111 = .ok (.decRec 255) ∧ decode 0b1100000000 = .ok .endInput

/-- 30_encoding.md R51, R52: the words that spell no command are exactly the reserved ones. -/
def Obligations.DecodeRejectsExactlyReserved : Prop :=
  ∀ w : CmdWord, (∃ r, decode w = .error r) ↔
    ((w.toNat / 256 = 0 ∨ w.toNat / 256 = 1) ∧ 2 ≤ w.toNat % 256) ∨ (w.toNat / 256 = 3 ∧ w.toNat % 256 ≠ 0)

/-- 30_encoding.md R58: the words of the output transactions; `0b00` in `out[9:8]` is never emitted, and no two
transactions share a word. -/
def Obligations.OutputWords : Prop :=
  (∀ b : Bit, (Txn.wbit b).word.toNat = 0x100 + b.toNat) ∧
  (∀ n : Byte, (Txn.wrec n).word.toNat = 0x200 + n.toNat) ∧
  Txn.close.word.toNat = 0x300 ∧
  (∀ t : Txn, t.word.toNat / 256 ≠ 0) ∧
  (∀ t u : Txn, t.word = u.word → t = u)

/-- 30_encoding.md R59: the assembler never turns a line of text into a word that spells no command, and each word comes
from a command of a line whose operands are in range. -/
def Obligations.AssemblerNeverIllegal : Prop :=
  ∀ (text : List Char) (words : List CmdWord), assembleText text = .ok words →
    ∀ w ∈ words, ∃ i, decode w = .ok i

/-- 30_encoding.md R59: the text of each command, with any comment behind it, assembles to its word. -/
def Obligations.AssemblyTextOfCommand : Prop :=
  ∀ (i : Instr) (comment : List Char),
    assembleText (asmOf i) = .ok [encode i] ∧ assembleText (asmOf i ++ ' ' :: ';' :: comment) = .ok [encode i]

/-- 30_encoding.md R59, R60: the line of each command, and the expansion of each pseudo-instruction, for every operand. -/
def Obligations.AssemblyExpansions : Prop :=
  assembleLine .startC = .ok [0x000] ∧ assembleLine .startE = .ok [0x001] ∧ assembleLine .endInput = .ok [0x300] ∧
  (∀ b, b ≤ 1 → assembleLine (.bit b) = .ok [0x100#10 ||| BitVec.ofNat 10 b]) ∧
  (∀ n, n ≤ 255 → assembleLine (.record n) = .ok [0x200#10 ||| BitVec.ofNat 10 n]) ∧
  (∀ b k, b ≤ 1 → assembleLine (.bits b k) = .ok (List.replicate k (0x100#10 ||| BitVec.ofNat 10 b))) ∧
  (∀ x, x ≤ 255 → assembleLine (.byte x) =
    .ok (([7, 6, 5, 4, 3, 2, 1, 0] : List Nat).map (fun k => 0x100#10 ||| BitVec.ofNat 10 (x / 2 ^ k % 2)))) ∧
  (∀ ns : List Nat, (∀ n ∈ ns, n ≤ 255) →
    assembleLine (.recs ns) = .ok (ns.map (fun n => 0x200#10 ||| BitVec.ofNat 10 n)) ∧
    assembleLine (.erecs ns) = assembleLine (.recs ns)) ∧
  (∀ b k, 1 < b → assembleLine (.bit b) = .error .outOfRange ∧ assembleLine (.bits b k) = .error .outOfRange) ∧
  (∀ n, 255 < n → assembleLine (.record n) = .error .outOfRange ∧ assembleLine (.byte n) = .error .outOfRange) ∧
  (∀ ns : List Nat, (∃ n ∈ ns, 255 < n) →
    assembleLine (.recs ns) = .error .outOfRange ∧ assembleLine (.erecs ns) = .error .outOfRange)

/-! ## State, status and reset -/

/-- 10_state.md R18: the fields of `STATUS`, in every state, with the codes of R14 and R17. -/
def Obligations.StatusFields : Prop :=
  ∀ s : State,
    s.status.toNat = 256 * s.runLen.toNat + 16 * s.cur.toNat + 4 * s.cause.code.toNat + s.phase.code.toNat ∧
    s.status.extractLsb' 0 2 = s.phase.code ∧ s.status.extractLsb' 2 2 = s.cause.code ∧
    s.status.getLsbD 4 = s.cur ∧ s.status.extractLsb' 5 3 = 0#3 ∧ s.status.extractLsb' 8 8 = s.runLen

/-- 10_state.md R14, R17: the codes of `phase` and `cause`. -/
def Obligations.PhaseAndCauseCodes : Prop :=
  Phase.idle.code = 0b00#2 ∧ Phase.runC.code = 0b01#2 ∧ Phase.runE.code = 0b10#2 ∧ Phase.faulted.code = 0b11#2 ∧
  Cause.noFault.code = 0b00#2 ∧ Cause.streamExhausted.code = 0b01#2 ∧ Cause.ioError.code = 0b10#2 ∧
  Cause.illegalCommand.code = 0b11#2

/-- 10_state.md R23: the values after hardware reset. -/
def Obligations.ResetValues : Prop :=
  State.reset.phase = .idle ∧ State.reset.cur = false ∧ State.reset.runLen = 0#8 ∧ State.reset.cause = .noFault ∧
  State.reset.status = 0x0000#16

/-- 10_state.md R21 (a), (c), (e), (f) at reset. -/
def Obligations.ResetMeetsInv : Prop := StateInv State.reset

/-- 10_state.md R21: every step keeps the invariants (a), (c), (e) and (f), from every state that meets them. -/
def Obligations.StepKeepsInv : Prop :=
  ∀ s t : State, StateInv s → step s = .next t → StateInv t

/-- 70_reset_and_hazards.md R101: the reset event from every state, `FAULTED` included, whatever `ERR` is; it emits
nothing, and an `ERR` still present faults the block at the next boundary. That reset leaves the level on `ERR` as it is is
the model's inference, not R101's words (assumptions 4 and 13, DEDUCED). -/
def Obligations.ResetEvent : Prop :=
  ∀ (s : State) (rest : List Event), s.inbox = .reset :: rest →
    ∃ t, step s = .next t ∧ t.phase = .idle ∧ t.cur = false ∧ t.runLen = 0#8 ∧ t.cause = .noFault ∧
      t.status = 0x0000#16 ∧ t.sink.got = s.sink.got ∧ t.sink.shared = s.sink.shared ∧ t.err = s.err ∧ t.inbox = rest ∧
      (s.err ≠ 0#2 → ∃ u, boundary t = .next u ∧ FaultEntry t u (errCause s.err))

/-- 70_reset_and_hazards.md R101: a reset inside a step. The step is abandoned, the sink has a prefix of its outputs, the
registers are at their reset values, and no `CLOSE` is added. (The mark on the sink of an open invocation is the model's own,
assumption 21.) -/
def Obligations.ResetInsideStep : Prop :=
  ∀ (s t : State) (rest : List Event) (k : Nat) (w : CmdWord) (outs : List Txn),
    s.inbox = .interrupt k .reset :: rest → s.err = 0#2 → s.port = some w →
    execWord w { s with inbox := rest, port := none } = .next t → t.sink.got = s.sink.got ++ outs →
    ∃ u, step s = .next u ∧ u.sink = { s.sink with
        got := s.sink.got ++ outs.take k
        abandoned := s.sink.abandoned || s.phase == .runC || s.phase == .runE } ∧
      u.phase = .idle ∧ u.cur = false ∧ u.runLen = 0#8 ∧ u.cause = .noFault ∧ u.inbox = rest

/-! ## The commands -/

/-- 40_control.md R63, R64: `START_C` and `START_E` in `IDLE`, with everything they leave unchanged. The mark on a sink that
is not fresh is the model's own (assumption 7). -/
def Obligations.StartOpensInvocation : Prop :=
  ∀ s : State, s.phase = .idle →
    exec .startC s = .next { s with
      phase := .runC, cur := false, runLen := 0#8,
      sink := { s.sink with shared := s.sink.shared || !s.sink.got.isEmpty || s.sink.abandoned } } ∧
    exec .startE s = .next { s with
      phase := .runE, cur := false, runLen := 0#8,
      sink := { s.sink with shared := s.sink.shared || !s.sink.got.isEmpty || s.sink.abandoned } }

/-- 41_compress.md R67: the three cases of `ENC_BIT` in `RUN_C`, in every state, with everything they leave unchanged. -/
def Obligations.EncBitThreeCases : Prop :=
  ∀ (b : Bit) (s : State), s.phase = .runC →
    (b = s.cur → s.runLen.toNat < 255 → exec (.encBit b) s = .next { s with runLen := s.runLen + 1#8 }) ∧
    (b = s.cur → s.runLen.toNat = 255 → exec (.encBit b) s = .next { s with
      runLen := 1#8, sink := { s.sink with got := s.sink.got ++ [.wrec 255#8, .wrec 0#8] } }) ∧
    (b ≠ s.cur → exec (.encBit b) s = .next { s with
      cur := b, runLen := 1#8, sink := { s.sink with got := s.sink.got ++ [.wrec s.runLen] } })

/-- 41_compress.md R75: the bit counter never wraps. In every case of `ENC_BIT` the new `runLen` is the old one plus 1,
with no overflow, or 1; and every record emitted is the old `runLen`, 255 or 0. -/
def Obligations.CounterNeverWraps : Prop :=
  ∀ (b : Bit) (s t : State), s.phase = .runC → exec (.encBit b) s = .next t →
    (t.runLen.toNat = s.runLen.toNat + 1 ∨ t.runLen.toNat = 1) ∧ t.runLen.toNat ≤ 255 ∧
    ∃ recs : List Byte, t.sink.got = s.sink.got ++ recs.map .wrec ∧ recs.length ≤ 2 ∧
      ∀ n ∈ recs, n = s.runLen ∨ n = 255#8 ∨ n = 0#8

/-- 42_expand.md R76: `DEC_REC n` in `RUN_E`, for every `n` from 0 to 255, with everything it leaves unchanged. -/
def Obligations.DecRecWritesRun : Prop :=
  ∀ (n : Byte) (s : State), s.phase = .runE →
    exec (.decRec n) s = .next { s with
      cur := !s.cur, sink := { s.sink with got := s.sink.got ++ List.replicate n.toNat (.wbit s.cur) } }

/-- 40_control.md R65: `END` in `RUN_C` and in `RUN_E`, with everything it leaves unchanged. -/
def Obligations.EndClosesInvocation : Prop :=
  ∀ s : State,
    (s.phase = .runC → s.runLen ≠ 0#8 → exec .endInput s = .next { s with
      phase := .idle, cur := false, runLen := 0#8,
      sink := { s.sink with got := s.sink.got ++ [.wrec s.runLen, .close] } }) ∧
    (s.phase = .runC → s.runLen = 0#8 → exec .endInput s = .next { s with
      phase := .idle, cur := false, sink := { s.sink with got := s.sink.got ++ [.close] } }) ∧
    (s.phase = .runE → exec .endInput s = .next { s with
      phase := .idle, cur := false, runLen := 0#8, sink := { s.sink with got := s.sink.got ++ [.close] } })

/-- 60_exceptions.md R84 with 40_control.md R66: outside `FAULTED`, executing a word raises `ILLEGAL_COMMAND` exactly when
the word is reserved or its command is illegal in the phase; the step then enters the fault and has no other effect. -/
def Obligations.IllegalCommandExactly : Prop :=
  ∀ (s : State) (w : CmdWord), s.phase ≠ .faulted →
    (ReservedWord w ∨ IllegalIn s.phase (w.toNat / 256) →
      ∃ t, execWord w s = .next t ∧ FaultEntry s t .illegalCommand ∧ SameSurroundings s t) ∧
    (¬ (ReservedWord w ∨ IllegalIn s.phase (w.toNat / 256)) →
      ∃ t, execWord w s = .next t ∧ t.phase ≠ .faulted ∧ t.cause = s.cause)

/-- 60_exceptions.md R88: in `FAULTED` every command word is consumed without any effect, an `ERR` changes none of the
block's registers and emits nothing, and only reset leaves `FAULTED`. -/
def Obligations.FaultedUntilReset : Prop :=
  (∀ (s : State) (w : CmdWord), s.phase = .faulted → s.err = 0#2 → s.port = some w →
    boundary s = .next { s with port := none }) ∧
  (∀ s : State, s.phase = .faulted → s.err ≠ 0#2 → ∃ t, boundary s = .next t ∧
    t.phase = .faulted ∧ t.cause = s.cause ∧ t.cur = s.cur ∧ t.runLen = s.runLen ∧ t.sink = s.sink) ∧
  (∀ s t : State, s.phase = .faulted → step s = .next t → t.phase ≠ .faulted → ResetNext s)

/-- 10_state.md R14: `phase` is written only by `START_C`, `START_E`, `END` and fault entry, among the commands. -/
def Obligations.PhaseWriters : Prop :=
  ∀ (i : Instr) (s t : State), exec i s = .next t → t.phase ≠ s.phase →
    (i = .startC ∧ s.phase = .idle ∧ t.phase = .runC) ∨
    (i = .startE ∧ s.phase = .idle ∧ t.phase = .runE) ∨
    (i = .endInput ∧ (s.phase = .runC ∨ s.phase = .runE) ∧ t.phase = .idle) ∨
    FaultEntry s t .illegalCommand

/-- 10_state.md R17: in every step, `cause` changes only by fault entry from `NONE`, or to `NONE` by reset. -/
def Obligations.CauseWriters : Prop :=
  ∀ s t : State, step s = .next t → t.cause ≠ s.cause →
    (s.cause = .noFault ∧ t.phase = .faulted) ∨
    (t.cause = .noFault ∧ t.phase = .idle ∧ t.cur = false ∧ t.runLen = 0#8 ∧ ResetNext s)

/-- 30_encoding.md R58, 70_reset_and_hazards.md R110: a command's outputs are appended to what the sink has; `WREC` is
emitted only in `RUN_C`, `WBIT` only in `RUN_E`, `CLOSE` only by `END`; at most 255 for `DEC_REC`, 2 for `ENC_BIT` and
`END`, none for a START. -/
def Obligations.OutputsByPhase : Prop :=
  ∀ (i : Instr) (s t : State), exec i s = .next t →
    ∃ outs, t.sink.got = s.sink.got ++ outs ∧
      (∀ n, .wrec n ∈ outs → s.phase = .runC) ∧ (∀ b, .wbit b ∈ outs → s.phase = .runE) ∧
      (.close ∈ outs → i = .endInput ∧ ∃ before, outs = before ++ [.close] ∧ .close ∉ before) ∧
      outs.length ≤ maxTransfers i

/-- 20_memory.md R43, 10_state.md R13: no command touches the ports, the source, the front end or what is still to come. -/
def Obligations.CommandFrame : Prop :=
  ∀ (i : Instr) (s t : State), exec i s = .next t → SameSurroundings s t

/-- No command ever stops the machine: each answers a next state from every state. -/
def Obligations.CommandsNeverStop : Prop :=
  ∀ (i : Instr) (s : State), ∃ t, exec i s = .next t

/-! ## Steps, the ERR input and the host -/

/-- The step runs the decoded command: `ERR` quiet and a word on the port that decodes to `i`, at a boundary. The word is
accepted, and the rest is `exec i`. -/
def Obligations.StepRunsDecoded : Prop :=
  ∀ (s : State) (w : CmdWord) (i : Instr), s.err = 0#2 → s.port = some w → decode w = .ok i → i.wf = true →
    (s.inbox = [] → step s = exec i { s with port := none }) ∧
    (∀ rest, s.inbox = .boundary :: rest → step s = exec i { s with port := none, inbox := rest })

/-- 10_state.md R19, assumption 1: a command's word placed by `withFetchWord`, in any state, is read by the decoder as that
command, and the next step runs exactly it. -/
def Obligations.FetchWordRuns : Prop :=
  ∀ (s : State) (i : Instr), decodeTableWord 16 (encode i).toNat = some i ∧
    step (s.withFetchWord 16 (encode i).toNat) = exec i { s with port := none, err := 0#2 }

/-- 60_exceptions.md R100: with no command and no front end the block waits, and all of its state is held. -/
def Obligations.BlockWaits : Prop :=
  ∀ s : State, s.inbox = [] → s.err = 0#2 → s.port = none → s.front = .off → step s = .next s

/-- 70_reset_and_hazards.md R105: a step is refused where the host presents a word over one not yet accepted. That this is the
ONLY stop is the model's choice, not R105's words: a host that withdraws its word goes on (assumption 12, DESIGN CHOICE),
and so does the block whose sink is shared, reused or connected inside an open invocation, where
93_implementation_defined.md I16 and I17 say `refuse` and the model gives the sink no output instead (assumptions 7 and 20,
DESIGN CHOICE). -/
def Obligations.OnlyOverwritingIsRefused : Prop :=
  ∀ s : State,
    (∀ f, step s ≠ .fault f) ∧
    (∀ r, step s = .refused r ↔
      r = .commandOverwritten ∧ s.port.isSome ∧ ∃ w rest, s.inbox = .present w :: rest)

/-- 60_exceptions.md R89, R87: a non-zero `ERR` is taken at the next boundary in every phase outside `FAULTED`, `IDLE`
included, with its cause; `0b11` counts as `IO_ERROR`. -/
def Obligations.ErrTaken : Prop :=
  ∀ s : State, s.phase ≠ .faulted →
    (s.err = 0b01#2 → ∃ t, boundary s = .next t ∧ FaultEntry s t .streamExhausted) ∧
    (s.err = 0b10#2 → ∃ t, boundary s = .next t ∧ FaultEntry s t .ioError) ∧
    (s.err = 0b11#2 → ∃ t, boundary s = .next t ∧ FaultEntry s t .ioError)

/-- 60_exceptions.md R91: a command presented together with an `ERR` is not executed: whatever the word, the registers and
the sink end as without it. It may or may not have been consumed. -/
def Obligations.ErrBeatsCommand : Prop :=
  ∀ (s : State) (w : CmdWord), s.err ≠ 0#2 →
    ∃ t u, boundary { s with port := some w } = .next t ∧ boundary { s with port := none } = .next u ∧
      t.phase = u.phase ∧ t.cause = u.cause ∧ t.cur = u.cur ∧ t.runLen = u.runLen ∧ t.sink = u.sink ∧
      t.phase = .faulted ∧ t.sink.got = s.sink.got ∧ (t.port = none ∨ t.port = some w)

/-- 60_exceptions.md R90: an `ERR` inside a step. The sink has a prefix of the step's outputs, the step's register writes
are not performed, and the fault is entered; and every prefix can occur. -/
def Obligations.ErrInsideStep : Prop :=
  ∀ (s t : State) (rest : List Event) (w : CmdWord) (e : BitVec 2) (outs : List Txn),
    s.phase ≠ .faulted → s.err = 0#2 → s.port = some w → e ≠ 0#2 →
    execWord w { s with port := none, inbox := rest } = .next t → t.sink.got = s.sink.got ++ outs →
    (∀ k, ∃ u, step { s with inbox := .interrupt k (.err e) :: rest } = .next u ∧
      FaultEntry { s with sink := { s.sink with got := s.sink.got ++ outs.take k } } u (errCause e)) ∧
    (∀ pre, pre <+: outs → ∃ k u, step { s with inbox := .interrupt k (.err e) :: rest } = .next u ∧
      u.sink.got = s.sink.got ++ pre)

/-- 70_reset_and_hazards.md R106: an invocation opened on a sink that has received something, or that an abandoned invocation
has used, has no defined output, whatever commands follow (the marks are the model's own, assumptions 7 and 21). -/
def Obligations.SharedSinkHasNoOutput : Prop :=
  ∀ (m : Mode) (is : List Instr) (s t : State), s.phase = .idle → s.sink.got ≠ [] ∨ s.sink.abandoned = true →
    execAll (m.start :: is) s = .next t →
    t.sink.output = none ∧ t.sink.written = none

/-- 60_exceptions.md R93, 70_reset_and_hazards.md R101, R111: a step that faults or resets the block while an invocation is open
leaves no result, however many of its outputs the sink has accepted, its `CLOSE` among them; and nothing that follows on
the same adapters makes one of it. (The mark on the sink is the model's own, assumption 21.) -/
def Obligations.FailedInvocationHasNoResult : Prop :=
  (∀ s t : State, s.phase = .runC ∨ s.phase = .runE → step s = .next t → t.phase = .faulted ∨ ResetNext s →
    t.sink.abandoned = true ∧ t.sink.output = none ∧ ∀ bytes, ¬ Succeeded t bytes) ∧
  (∀ (k : Nat) (s t : State), s.sink.abandoned = true → (∀ src, .connect src ∉ s.inbox) → runSteps k s = .next t →
    t.sink.output = none ∧ ∀ bytes, ¬ Succeeded t bytes)

/-- The mark of assumption 21 is set by nothing else: a step that sets it began with an invocation open, and faulted or reset
the block. And a fault or a reset while no invocation is open leaves the sink as it is, with the result of the last one. -/
def Obligations.OnlyOpenInvocationsFail : Prop :=
  (∀ s t : State, s.sink.abandoned = false → step s = .next t → t.sink.abandoned = true →
    (s.phase = .runC ∨ s.phase = .runE) ∧ (t.phase = .faulted ∨ ResetNext s)) ∧
  (∀ s t : State, s.phase = .idle ∨ s.phase = .faulted →
    boundary s = .next t ∧ t.phase = .faulted ∨ step s = .next t ∧ ResetNext s → t.sink = s.sink)

/-- 70_reset_and_hazards.md R111: a result comes into being exactly by an `END` accepted in `RUN_C` or `RUN_E` that completes,
with `ERR` quiet; and such an `END`, on a sink of this invocation alone, gives one. (The conditions on the sink's marks
rest on assumptions 7 and 21.) -/
def Obligations.ResultExactlyByEnd : Prop :=
  (∀ (s t : State) (bytes : List Byte), s.sink.output = none → step s = .next t → t.sink.output = some bytes →
    (s.phase = .runC ∨ s.phase = .runE) ∧ s.err = 0#2 ∧ s.port = some (encode .endInput) ∧
      t.phase = .idle ∧ t.cause = s.cause) ∧
  (∀ s : State, s.phase = .runC ∨ s.phase = .runE → s.sink.shared = false → s.sink.abandoned = false →
    .close ∉ s.sink.got → ∃ t bytes, exec .endInput s = .next t ∧ t.phase = .idle ∧ t.sink.output = some bytes ∧
      (s.cause = .noFault → Succeeded t bytes))

/-! ## The streams -/

/-- 20_memory.md R33, R34: bit `k` lands in byte `k div 8` at position `7 - (k mod 8)`, there are `ceil(K/8)` bytes, and the
positions after the last bit are zero. -/
def Obligations.PackPlacesBits : Prop :=
  ∀ B : List Bit, (pack B).length = (B.length + 7) / 8 ∧
    ∀ k, k < 8 * (pack B).length →
      ∃ x, (pack B)[k / 8]? = some x ∧ x.getLsbD (7 - k % 8) = (B[k]?).getD false

/-- 20_memory.md R31, R32, R35: bytes read as bits pack back to themselves; a stream read by `SrcReadU(8)` gives its bytes one
by one, whatever `TAIL_POLICY`; and `SrcReadBit` gives the bits in order. -/
def Obligations.SourceInvertsSink : Prop :=
  (∀ X : List Byte, pack (bitsOfBytes X) = X) ∧
  (∀ (x : Byte) (X : List Byte) (p : TailPolicy),
    (Source.mk (bitsOfBytes (x :: X)) p).readU8 = some (x, ⟨bitsOfBytes X, p⟩)) ∧
  (∀ (b : Bit) (B : List Bit) (p : TailPolicy), (Source.mk (b :: B) p).readBit = some (b, ⟨B, p⟩)) ∧
  (∀ p : TailPolicy, (Source.mk [] p).readBit = none ∧ (Source.mk [] p).readU8 = none)

/-- 20_memory.md R37: a tail of 1 to 7 bits under both policies. -/
def Obligations.TailPolicyRead : Prop :=
  ∀ tail : List Bit, tail ≠ [] → tail.length < 8 →
    (Source.mk tail .fault).readU8 = none ∧
    ∃ v : Byte, (Source.mk tail .zeroFill).readU8 = some (v, ⟨[], .zeroFill⟩) ∧
      ∀ k, k < 8 → v.getLsbD (7 - k) = (tail[k]?).getD false

/-! ## The encoder and the decoder over whole inputs -/

/-- 41_compress.md R70 with 10_state.md R21 (b): after `START_C` and any bits, `runLen = 0` exactly when there was none, and
then `cur = 0`; so the flush of `END` is one record, or none for the empty input. -/
def Obligations.FlushIsOneRecordOrNone : Prop :=
  (∀ (S : List Bit) (s : State), s.phase = .idle → ∃ t, execAll (.startC :: S.map .encBit) s = .next t ∧
    t.phase = .runC ∧ (t.runLen = 0#8 ↔ S = []) ∧ (S = [] → t.cur = false)) ∧
  (∀ s : State, s.phase = .runC → ∃ t, exec .endInput s = .next t ∧
    t.sink.got = s.sink.got ++ (if s.runLen.toNat > 0 then [.wrec s.runLen] else []) ++ [.close])

/-- 41_compress.md R71: `START_C` followed at once by `END` emits only `CLOSE`: zero records and zero output bytes. -/
def Obligations.EmptyInput : Prop :=
  ∀ s : State, s.phase = .idle → ∃ t, execAll [.startC, .endInput] s = .next t ∧
    t.phase = .idle ∧ t.sink.got = s.sink.got ++ [.close] ∧ (s.sink = Sink.fresh → t.sink.output = some [])

/-- 41_compress.md R69: in a run whose first bit is counted, `L` more bits of the same value emit the pair `255, 0` once for
each full 255 of them, and leave `runLen` in 1..255. -/
def Obligations.ContinuationFires : Prop :=
  ∀ (s : State) (L : Nat), s.phase = .runC → s.runLen = 1#8 →
    ∃ t, execAll (List.replicate L (.encBit s.cur)) s = .next t ∧ t.phase = .runC ∧ t.cur = s.cur ∧
      t.runLen.toNat = L % 255 + 1 ∧
      t.sink.got = s.sink.got ++ (List.replicate (L / 255) [Txn.wrec 255#8, Txn.wrec 0#8]).flatten

/-- 41_compress.md R72, R73: the commands of a compress invocation over any bits, from `IDLE`, emit exactly the records of
the closed form by runs, then `CLOSE`; on a fresh sink the output bytes are those records. -/
def Obligations.CompressByRuns : Prop :=
  ∀ (S : List Bit) (s : State), s.phase = .idle →
    ∃ t, execAll (compressCommands S) s = .next t ∧ t.phase = .idle ∧ t.cause = s.cause ∧
      t.sink.got = s.sink.got ++ (compressByRuns S).map .wrec ++ [.close] ∧
      (s.sink = Sink.fresh → t.sink.output = some (compressByRuns S)) ∧
      compress S = compressByRuns S ∧ pack (bitsOfBytes (compress S)) = compress S

/-- 41_compress.md R73: `enc(L)` sums to `L`, ends in 1..255 for `L >= 1`, and has the checked values. -/
def Obligations.RunEncoding : Prop :=
  (∀ L, ((encodeRun L).map BitVec.toNat).sum = L) ∧
  (∀ L, 1 ≤ L → ∃ n, (encodeRun L).getLast? = some n ∧ n ≠ 0#8 ∧ (encodeRun L).length = 2 * ((L - 1) / 255) + 1) ∧
  encodeRun 0 = [0] ∧ encodeRun 255 = [255] ∧ encodeRun 256 = [255, 0, 1] ∧ encodeRun 510 = [255, 0, 255] ∧
  encodeRun 511 = [255, 0, 255, 0, 1] ∧ encodeRun 1000 = [255, 0, 255, 0, 255, 0, 235]

/-- 42_expand.md R77: after `k` `DEC_REC` commands since `START_E`, `cur = k mod 2`, and record `k` is written as value
`k mod 2`. -/
def Obligations.Alternation : Prop :=
  ∀ (E : List Byte) (s : State), s.phase = .idle →
    ∃ t, execAll (.startE :: E.map .decRec) s = .next t ∧ t.phase = .runE ∧ t.runLen = 0#8 ∧
      t.cur.toNat = E.length % 2 ∧
      t.sink.got = s.sink.got ++
        (E.zipIdx.map (fun (n, k) => List.replicate n.toNat (Txn.wbit (k % 2 == 1)))).flatten

/-- 42_expand.md R80, R79: the commands of an expand invocation over any records emit the bits of `expand` and then `CLOSE`
alone; on a fresh sink the output is `pack(expand(E))`; the number of bits is `sum(E)`. -/
def Obligations.ExpandByIndex : Prop :=
  ∀ (E : List Byte) (s : State), s.phase = .idle →
    ∃ t, execAll (expandCommands E) s = .next t ∧ t.phase = .idle ∧ t.cause = s.cause ∧
      t.sink.got = s.sink.got ++ (expandByIndex E).map .wbit ++ [.close] ∧
      (s.sink = Sink.fresh → t.sink.output = some (pack (expandByIndex E))) ∧
      expand E = expandByIndex E ∧ (expand E).length = (E.map BitVec.toNat).sum

/-- 42_expand.md R78: the continuation form `[255, 0]^q ++ [r]` decodes to `255*q + r` bits of the one value, from either
value of `cur`. -/
def Obligations.ContinuationAbsorbed : Prop :=
  ∀ (v : Bit) (q : Nat) (r : Byte) (rest : List Byte),
    expandFrom v ((List.replicate q ([255#8, 0#8] : List Byte)).flatten ++ r :: rest) =
      List.replicate (255 * q + r.toNat) v ++ expandFrom (!v) rest

/-- 42_expand.md R81 (a) to (d): the round trip for every bit list; the canonical streams are exactly the fixed points;
`expand` is not injective; the round trip on bytes needs no padding. -/
def Obligations.RoundTrip : Prop :=
  (∀ S : List Bit, expand (compress S) = S) ∧
  (∀ E : List Byte, compress (expand E) = E ↔ canonical E = true) ∧
  (expand [5, 0, 3] = List.replicate 8 false ∧ expand [8] = List.replicate 8 false ∧
    expand [8, 0] = List.replicate 8 false ∧ canonical [5, 0, 3] = false ∧ canonical [8] = true ∧
    canonical [8, 0] = false) ∧
  (∀ X : List Byte, pack (expand (compress (bitsOfBytes X))) = X)

/-- 30_encoding.md R55: what canonical means: empty, or the last record is not 0 and every 0 record after the first
follows a 255; and every output of `compress` is canonical. -/
def Obligations.CanonicalForm : Prop :=
  (∀ E : List Byte, canonical E = true ↔
    E = [] ∨ (E.getLast? ≠ some 0#8 ∧ ∀ i, E[i + 1]? = some 0#8 → E[i]? = some 255#8)) ∧
  (∀ S : List Bit, canonical (compress S) = true)

/-! ## Invocations run by the front ends -/

/-- 20_memory.md R29, 70_reset_and_hazards.md R111, R112: the machine with the compress front end on any bits ends
successfully, and its output is the closed form of `compress`. -/
def Obligations.CompressInvocation : Prop :=
  ∀ (S : List Bit) (p : TailPolicy) (s : State), s.phase = .idle → s.cause = .noFault →
    ∃ t, runSteps (2 * (S.length + 2)) (s.boot .compress ⟨S, p⟩) = .next t ∧ Succeeded t (compressByRuns S) ∧
      recordsOf t.sink.got = compressByRuns S

/-- 20_memory.md R30, 70_reset_and_hazards.md R111, R112: the machine with the expand front end on any whole records ends
successfully, under either `TAIL_POLICY`, and its output is `pack(expand(E))`. -/
def Obligations.ExpandInvocation : Prop :=
  ∀ (E : List Byte) (p : TailPolicy) (s : State), s.phase = .idle → s.cause = .noFault →
    ∃ t, runSteps (2 * (E.length + 2)) (s.boot .expand ⟨bitsOfBytes E, p⟩) = .next t ∧
      Succeeded t (pack (expandByIndex E))

/-- 70_reset_and_hazards.md R107, 20_memory.md R37: an expand input with a tail of 1 to 7 bits. Under `Fault` it ends in
`FAULTED` with `STREAM_EXHAUSTED`, no `CLOSE` and no output; under `ZeroFill` it decodes one extra record. -/
def Obligations.TailedInvocation : Prop :=
  ∀ (E : List Byte) (tail : List Bit) (s : State), tail ≠ [] → tail.length < 8 →
    s.phase = .idle → s.cause = .noFault →
    (∃ t, runSteps (2 * (E.length + 2)) (s.boot .expand ⟨bitsOfBytes E ++ tail, .fault⟩) = .next t ∧
      t.phase = .faulted ∧ t.cause = .streamExhausted ∧ t.sink.got = (expandByIndex E).map .wbit ∧
      t.sink.output = none) ∧
    (∃ t x, runSteps (2 * (E.length + 3)) (s.boot .expand ⟨bitsOfBytes E ++ tail, .zeroFill⟩) = .next t ∧
      Succeeded t (pack (expandByIndex (E ++ [x]))) ∧
      ∀ k, k < 8 → x.getLsbD (7 - k) = (tail[k]?).getD false)

/-- 00_scope.md R2, 42_expand.md R81 (d): the contract of the block, on the machine. For every byte string, compressing it
and then expanding the output, each with fresh adapters and no reset between, gives the byte string back. -/
def Obligations.MachineRoundTrip : Prop :=
  ∀ (X : List Byte) (p q : TailPolicy) (s : State), s.phase = .idle → s.cause = .noFault →
    ∃ t Y u, runSteps (2 * (8 * X.length + 2)) (s.boot .compress ⟨bitsOfBytes X, p⟩) = .next t ∧ Succeeded t Y ∧
      runSteps (2 * (Y.length + 2)) (t.boot .expand ⟨bitsOfBytes Y, q⟩) = .next u ∧ Succeeded u X
end

