-- ==== Sys2Proof/Laws/Encoding.lean ====
section
/-! SUPPORT. The fields of a command word as numbers, and the well-formedness of every command. -/

namespace Sys2Proof

/-- The operands of an `Instr` fit their payload fields by their types. -/
theorem Instr.wf_all (i : Instr) : i.wf = true := by
  cases i with
  | startC => rfl
  | startE => rfl
  | encBit b => cases b <;> rfl
  | decRec n => simpa [Instr.wf] using Nat.le_of_lt_succ n.isLt
  | endInput => rfl

theorem opField_toNat (w : CmdWord) : (opField w).toNat = w.toNat / 256 := by
  have := w.isLt
  simp [opField, BitVec.extractLsb'_toNat, Nat.shiftRight_eq_div_pow]
  omega

theorem payloadField_toNat (w : CmdWord) : (payloadField w).toNat = w.toNat % 256 := by
  simp [payloadField, BitVec.extractLsb'_toNat]

theorem packFields_toNat (op : BitVec 2) (p : Byte) : (packFields op p).toNat = 256 * op.toNat + p.toNat := by
  rw [packFields, BitVec.toNat_append, ← Nat.shiftLeft_add_eq_or_of_lt p.isLt, Nat.shiftLeft_eq]
  omega

@[simp] theorem opField_packFields (op : BitVec 2) (p : Byte) : opField (packFields op p) = op := by
  have := p.isLt
  apply BitVec.eq_of_toNat_eq
  rw [opField_toNat, packFields_toNat]
  omega

@[simp] theorem payloadField_packFields (op : BitVec 2) (p : Byte) : payloadField (packFields op p) = p := by
  have := p.isLt
  apply BitVec.eq_of_toNat_eq
  rw [payloadField_toNat, packFields_toNat]
  omega

/-- A command word is its two fields, `{op, payload}`. -/
theorem packFields_fields (w : CmdWord) : packFields (opField w) (payloadField w) = w := by
  apply BitVec.eq_of_toNat_eq
  rw [packFields_toNat, opField_toNat, payloadField_toNat]
  omega

end Sys2Proof
end

