-- ==== Sys2Proof/Laws/State.lean ====
section
/-! SUPPORT. One lemma for each field an operation over State may touch, true by `rfl`, so that no later proof unfolds a
record update. -/

namespace Sys2Proof.Machine

variable (s : State) (ts : List Txn) (c : Cause) (p : Phase) (e : BitVec 2) (i : Instr)

@[simp] theorem Sink.accept_got (k : Sink) : (k.accept ts).got = k.got ++ ts := rfl
@[simp] theorem Sink.accept_abandoned (k : Sink) : (k.accept ts).abandoned = k.abandoned := rfl
@[simp] theorem Sink.enter_abandoned (k : Sink) : k.enter.abandoned = k.abandoned := rfl
@[simp] theorem Sink.abandonIf_got (k : Sink) (o : Bool) : (k.abandonIf o).got = k.got := rfl
@[simp] theorem Sink.abandonIf_shared (k : Sink) (o : Bool) : (k.abandonIf o).shared = k.shared := rfl
@[simp] theorem Sink.abandonIf_abandoned (k : Sink) (o : Bool) :
    (k.abandonIf o).abandoned = (k.abandoned || o) := rfl
@[simp] theorem Sink.accept_shared (k : Sink) : (k.accept ts).shared = k.shared := rfl
@[simp] theorem Sink.enter_got (k : Sink) : k.enter.got = k.got := rfl
@[simp] theorem Sink.enter_shared (k : Sink) : k.enter.shared = (k.shared || !k.got.isEmpty || k.abandoned) := rfl
@[simp] theorem Sink.fresh_got : Sink.fresh.got = [] := rfl
@[simp] theorem Sink.fresh_shared : Sink.fresh.shared = false := rfl
@[simp] theorem Sink.fresh_abandoned : Sink.fresh.abandoned = false := rfl

@[simp] theorem State.abandonOpen_phase : s.abandonOpen.phase = s.phase := rfl
@[simp] theorem State.abandonOpen_cur : s.abandonOpen.cur = s.cur := rfl
@[simp] theorem State.abandonOpen_runLen : s.abandonOpen.runLen = s.runLen := rfl
@[simp] theorem State.abandonOpen_cause : s.abandonOpen.cause = s.cause := rfl
@[simp] theorem State.abandonOpen_err : s.abandonOpen.err = s.err := rfl
@[simp] theorem State.abandonOpen_port : s.abandonOpen.port = s.port := rfl
@[simp] theorem State.abandonOpen_source : s.abandonOpen.source = s.source := rfl
@[simp] theorem State.abandonOpen_front : s.abandonOpen.front = s.front := rfl
@[simp] theorem State.abandonOpen_inbox : s.abandonOpen.inbox = s.inbox := rfl
@[simp] theorem State.abandonOpen_freeIx : s.abandonOpen.freeIx = s.freeIx := rfl
@[simp] theorem State.abandonOpen_sink : s.abandonOpen.sink = s.sink.abandonIf s.isOpen := rfl

@[simp] theorem State.emit_phase : (s.emit ts).phase = s.phase := rfl
@[simp] theorem State.emit_cur : (s.emit ts).cur = s.cur := rfl
@[simp] theorem State.emit_runLen : (s.emit ts).runLen = s.runLen := rfl
@[simp] theorem State.emit_cause : (s.emit ts).cause = s.cause := rfl
@[simp] theorem State.emit_err : (s.emit ts).err = s.err := rfl
@[simp] theorem State.emit_port : (s.emit ts).port = s.port := rfl
@[simp] theorem State.emit_source : (s.emit ts).source = s.source := rfl
@[simp] theorem State.emit_front : (s.emit ts).front = s.front := rfl
@[simp] theorem State.emit_inbox : (s.emit ts).inbox = s.inbox := rfl
@[simp] theorem State.emit_freeIx : (s.emit ts).freeIx = s.freeIx := rfl
@[simp] theorem State.emit_sink : (s.emit ts).sink = s.sink.accept ts := rfl

@[simp] theorem State.raise_phase : (s.raise c).phase = .faulted := rfl
@[simp] theorem State.raise_cause : (s.raise c).cause = if s.cause = .noFault then c else s.cause := rfl
@[simp] theorem State.raise_cur : (s.raise c).cur = s.cur := rfl
@[simp] theorem State.raise_runLen : (s.raise c).runLen = s.runLen := rfl
@[simp] theorem State.raise_sink : (s.raise c).sink = s.sink.abandonIf s.isOpen := rfl
@[simp] theorem State.raise_err : (s.raise c).err = s.err := rfl
@[simp] theorem State.raise_port : (s.raise c).port = s.port := rfl
@[simp] theorem State.raise_source : (s.raise c).source = s.source := rfl
@[simp] theorem State.raise_front : (s.raise c).front = s.front := rfl
@[simp] theorem State.raise_inbox : (s.raise c).inbox = s.inbox := rfl
@[simp] theorem State.raise_freeIx : (s.raise c).freeIx = s.freeIx := rfl

@[simp] theorem State.openInvocation_phase : (s.openInvocation p).phase = p := rfl
@[simp] theorem State.openInvocation_cur : (s.openInvocation p).cur = false := rfl
@[simp] theorem State.openInvocation_runLen : (s.openInvocation p).runLen = 0#8 := rfl
@[simp] theorem State.openInvocation_cause : (s.openInvocation p).cause = s.cause := rfl
@[simp] theorem State.openInvocation_sink : (s.openInvocation p).sink = s.sink.enter := rfl
@[simp] theorem State.openInvocation_err : (s.openInvocation p).err = s.err := rfl
@[simp] theorem State.openInvocation_port : (s.openInvocation p).port = s.port := rfl
@[simp] theorem State.openInvocation_source : (s.openInvocation p).source = s.source := rfl
@[simp] theorem State.openInvocation_front : (s.openInvocation p).front = s.front := rfl
@[simp] theorem State.openInvocation_inbox : (s.openInvocation p).inbox = s.inbox := rfl
@[simp] theorem State.openInvocation_freeIx : (s.openInvocation p).freeIx = s.freeIx := rfl

@[simp] theorem State.acceptWord_phase : s.acceptWord.phase = s.phase := rfl
@[simp] theorem State.acceptWord_cur : s.acceptWord.cur = s.cur := rfl
@[simp] theorem State.acceptWord_runLen : s.acceptWord.runLen = s.runLen := rfl
@[simp] theorem State.acceptWord_cause : s.acceptWord.cause = s.cause := rfl
@[simp] theorem State.acceptWord_sink : s.acceptWord.sink = s.sink := rfl
@[simp] theorem State.acceptWord_err : s.acceptWord.err = s.err := rfl
@[simp] theorem State.acceptWord_port : s.acceptWord.port = none := rfl
@[simp] theorem State.acceptWord_source : s.acceptWord.source = s.source := rfl
@[simp] theorem State.acceptWord_front : s.acceptWord.front = s.front := rfl
@[simp] theorem State.acceptWord_inbox : s.acceptWord.inbox = s.inbox := rfl
@[simp] theorem State.acceptWord_freeIx : s.acceptWord.freeIx = s.freeIx := rfl

@[simp] theorem State.driveErr_phase : (s.driveErr e).phase = s.phase := rfl
@[simp] theorem State.driveErr_cur : (s.driveErr e).cur = s.cur := rfl
@[simp] theorem State.driveErr_runLen : (s.driveErr e).runLen = s.runLen := rfl
@[simp] theorem State.driveErr_cause : (s.driveErr e).cause = s.cause := rfl
@[simp] theorem State.driveErr_sink : (s.driveErr e).sink = s.sink := rfl
@[simp] theorem State.driveErr_err : (s.driveErr e).err = e := rfl
@[simp] theorem State.driveErr_port : (s.driveErr e).port = s.port := rfl
@[simp] theorem State.driveErr_source : (s.driveErr e).source = s.source := rfl
@[simp] theorem State.driveErr_front : (s.driveErr e).front = if e = 0#2 then s.front else .off := rfl
@[simp] theorem State.driveErr_inbox : (s.driveErr e).inbox = s.inbox := rfl
@[simp] theorem State.driveErr_freeIx : (s.driveErr e).freeIx = s.freeIx := rfl

@[simp] theorem State.resetRegisters_phase : s.resetRegisters.phase = .idle := rfl
@[simp] theorem State.resetRegisters_cur : s.resetRegisters.cur = false := rfl
@[simp] theorem State.resetRegisters_runLen : s.resetRegisters.runLen = 0#8 := rfl
@[simp] theorem State.resetRegisters_cause : s.resetRegisters.cause = .noFault := rfl
@[simp] theorem State.resetRegisters_sink : s.resetRegisters.sink = s.sink := rfl
@[simp] theorem State.resetRegisters_err : s.resetRegisters.err = s.err := rfl
@[simp] theorem State.resetRegisters_port : s.resetRegisters.port = s.port := rfl
@[simp] theorem State.resetRegisters_source : s.resetRegisters.source = s.source := rfl
@[simp] theorem State.resetRegisters_front : s.resetRegisters.front = s.front := rfl
@[simp] theorem State.resetRegisters_inbox : s.resetRegisters.inbox = s.inbox := rfl
@[simp] theorem State.resetRegisters_freeIx : s.resetRegisters.freeIx = s.freeIx := rfl

@[simp] theorem State.presentCommand_phase : (s.presentCommand i).phase = s.phase := rfl
@[simp] theorem State.presentCommand_cur : (s.presentCommand i).cur = s.cur := rfl
@[simp] theorem State.presentCommand_runLen : (s.presentCommand i).runLen = s.runLen := rfl
@[simp] theorem State.presentCommand_cause : (s.presentCommand i).cause = s.cause := rfl
@[simp] theorem State.presentCommand_sink : (s.presentCommand i).sink = s.sink := rfl
@[simp] theorem State.presentCommand_err : (s.presentCommand i).err = s.err := rfl
@[simp] theorem State.presentCommand_port : (s.presentCommand i).port = some (encode i) := rfl
@[simp] theorem State.presentCommand_source : (s.presentCommand i).source = s.source := rfl
@[simp] theorem State.presentCommand_front : (s.presentCommand i).front = s.front := rfl
@[simp] theorem State.presentCommand_inbox : (s.presentCommand i).inbox = s.inbox := rfl
@[simp] theorem State.presentCommand_freeIx : (s.presentCommand i).freeIx = s.freeIx := rfl

@[simp] theorem State.settlePort_phase : s.settlePort.phase = s.phase := by
  unfold State.settlePort; split <;> rfl
@[simp] theorem State.settlePort_cur : s.settlePort.cur = s.cur := by
  unfold State.settlePort; split <;> rfl
@[simp] theorem State.settlePort_runLen : s.settlePort.runLen = s.runLen := by
  unfold State.settlePort; split <;> rfl
@[simp] theorem State.settlePort_cause : s.settlePort.cause = s.cause := by
  unfold State.settlePort; split <;> rfl
@[simp] theorem State.settlePort_sink : s.settlePort.sink = s.sink := by
  unfold State.settlePort; split <;> rfl
@[simp] theorem State.settlePort_err : s.settlePort.err = s.err := by
  unfold State.settlePort; split <;> rfl
@[simp] theorem State.settlePort_source : s.settlePort.source = s.source := by
  unfold State.settlePort; split <;> rfl
@[simp] theorem State.settlePort_front : s.settlePort.front = s.front := by
  unfold State.settlePort; split <;> rfl
@[simp] theorem State.settlePort_inbox : s.settlePort.inbox = s.inbox := by
  unfold State.settlePort; split <;> rfl

end Sys2Proof.Machine
end

