-- ==== Sys2Proof/Laws/Ops.lean ====
section
/-! SUPPORT. What each shared operation can do, said once: the phase check, the sink's state after an operation, the free
port, and one inversion lemma for the commands. -/

namespace Sys2Proof.Machine

/-- The three outcomes of the phase check, in the order of 40_control.md R66. -/
theorem State.guarded_cases (s : State) (legal : Phase → Bool) (body : State → State) :
    (s.phase = .faulted ∧ s.guarded legal body = s) ∨
    (s.phase ≠ .faulted ∧ legal s.phase = true ∧ s.guarded legal body = body s) ∨
    (s.phase ≠ .faulted ∧ legal s.phase = false ∧ s.guarded legal body = s.raise .illegalCommand) := by
  unfold State.guarded
  by_cases hf : s.phase = .faulted
  · simp [hf]
  · cases legal s.phase <;> simp [hf]

theorem State.guarded_faulted {s : State} {legal : Phase → Bool} {body : State → State} (h : s.phase = .faulted) :
    s.guarded legal body = s := by
  simp [State.guarded, h]

theorem State.guarded_legal {s : State} {legal : Phase → Bool} {body : State → State} (hf : s.phase ≠ .faulted)
    (hl : legal s.phase = true) : s.guarded legal body = body s := by
  simp [State.guarded, hf, hl]

theorem State.guarded_illegal {s : State} {legal : Phase → Bool} {body : State → State} (hf : s.phase ≠ .faulted)
    (hl : legal s.phase = false) : s.guarded legal body = s.raise .illegalCommand := by
  simp [State.guarded, hf, hl]

/-- A word on the port that was not executed is still there or was consumed. -/
theorem State.settlePort_port (s : State) : s.settlePort.port = none ∨ s.settlePort.port = s.port := by
  unfold State.settlePort
  split
  · exact .inr rfl
  · cases Config.unexecutedConsumed s.freeIx <;> simp

theorem State.settlePort_of_none {s : State} (h : s.port = none) : s.settlePort = s := by
  simp [State.settlePort, h]

theorem errCause_eq_noFault {e : BitVec 2} : errCause e = .noFault ↔ e = 0#2 := by
  revert e; decide

@[simp] theorem encodeBit_counts {b cur : Bit} {n : Byte} (h : b = cur) (hn : n < Config.maxRun) :
    encodeBit b cur n = (cur, n + 1#8, []) := by
  simp [encodeBit, h, hn]

theorem encodeBit_continues {b cur : Bit} {n : Byte} (h : b = cur) (hn : ¬ n < Config.maxRun) :
    encodeBit b cur n = (cur, 1#8, [Config.maxRun, 0#8]) := by
  simp [encodeBit, h, hn]

theorem encodeBit_ends {b cur : Bit} {n : Byte} (h : b ≠ cur) : encodeBit b cur n = (b, 1#8, [n]) := by
  simp [encodeBit, h]

theorem State.isOpen_iff {s : State} : s.isOpen = true ↔ s.phase = .runC ∨ s.phase = .runE := by
  unfold State.isOpen; cases s.phase <;> decide

/-- Where no invocation is open nothing is abandoned. -/
theorem Sink.abandonIf_false (k : Sink) : k.abandonIf false = k := by
  simp [Sink.abandonIf]

/-- When a sink has a result. -/
theorem Sink.output_eq_some {k : Sink} {bytes : List Byte} :
    k.output = some bytes ↔
      k.shared = false ∧ k.abandoned = false ∧ stageOf k.got = .closed ∧ pack k.bits = bytes := by
  unfold Sink.output
  cases k.shared <;> cases k.abandoned <;> cases stageOf k.got <;> simp

/-- Everything a command can do, by the phase it meets. -/
theorem exec_cases {i : Instr} {s t : State} (h : exec i s = .next t) :
    (s.phase = .faulted ∧ t = s) ∨
    (s.phase ≠ .faulted ∧ t = s.raise .illegalCommand) ∨
    (i = .startC ∧ s.phase = .idle ∧ t = s.openInvocation .runC) ∨
    (i = .startE ∧ s.phase = .idle ∧ t = s.openInvocation .runE) ∨
    (∃ b, i = .encBit b ∧ s.phase = .runC ∧ t = s.countBit b) ∨
    (∃ n, i = .decRec n ∧ s.phase = .runE ∧ t = s.writeRun n) ∨
    (i = .endInput ∧ (s.phase = .runC ∨ s.phase = .runE) ∧ t = s.closeInvocation) := by
  have key : ∀ {legal : Phase → Bool} {body : State → State}, t = s.guarded legal body →
      (s.phase = .faulted ∧ t = s) ∨ (s.phase ≠ .faulted ∧ t = s.raise .illegalCommand) ∨
        (legal s.phase = true ∧ t = body s) := by
    rintro legal body rfl
    rcases s.guarded_cases legal body with h | h | h
    · exact .inl h
    · exact .inr (.inr h.2)
    · exact .inr (.inl ⟨h.1, h.2.2⟩)
  cases i <;>
    (simp only [exec, execStartC, execStartE, execEncBit, execDecRec, execEndInput, Host.Outcome.next.injEq] at h
     rcases key h.symm with h | h | ⟨hl, ht⟩
     · exact .inl h
     · exact .inr (.inl h)
     · simp_all)

end Sys2Proof.Machine
end

