-- ==== Sys2Proof/Laws/PerInstr.lean ====
section
/-! SUPPORT. Statements made command by command: the encoding of each command matches its row of spec/opcode_table.json,
mask and match, as numbers. -/

namespace Sys2Proof.Laws.TableRow

/-- The row's mask (spec/opcode_table.json, "mask"). -/
def mask : Instr → CmdWord
  | .startC => 0x3FF
  | .startE => 0x3FF
  | .encBit _ => 0x3FE
  | .decRec _ => 0x300
  | .endInput => 0x3FF

/-- The row's match (spec/opcode_table.json, "match"). -/
def pattern : Instr → CmdWord
  | .startC => 0x000
  | .startE => 0x001
  | .encBit _ => 0x100
  | .decRec _ => 0x200
  | .endInput => 0x300

/-- The command is well formed and its word has its row's fixed bits. -/
def Statement (i : Instr) : Prop := i.wf = true ∧ encode i &&& mask i = pattern i

theorem startC : Statement .startC := by unfold Statement; decide
theorem startE : Statement .startE := by unfold Statement; decide
theorem encBit (b : Bit) : Statement (.encBit b) := by cases b <;> (unfold Statement; decide)
theorem decRec (n : Byte) : Statement (.decRec n) := by
  revert n; unfold Statement; decide
theorem endInput : Statement .endInput := by unfold Statement; decide

end Sys2Proof.Laws.TableRow
end

