-- ==== Sys2Proof/Laws/Step.lean ====
section
/-! SUPPORT. Inversion of a transaction boundary, of an event and of a step. -/

namespace Sys2Proof.Machine

/-- Executing a word is executing the command it spells, or the illegal word. -/
theorem execWord_cases {w : CmdWord} {s t : State} (h : execWord w s = .next t) :
    (∃ i, decode w = .ok i ∧ exec i s = .next t) ∨ (∃ r, decode w = .error r ∧ t = s.illegalWord) := by
  unfold execWord at h
  split at h
  · exact .inl ⟨_, ‹_›, h⟩
  · simp only [Host.Outcome.next.injEq] at h
    exact .inr ⟨_, ‹_›, h.symm⟩

/-- What a transaction boundary does, in the order of 60_exceptions.md R91. -/
theorem boundary_cases {s t : State} (h : boundary s = .next t) :
    (s.err ≠ 0#2 ∧ t = s.takeErr) ∨
    (s.err = 0#2 ∧ ∃ w, s.port = some w ∧ execWord w s.acceptWord = .next t) ∨
    (s.err = 0#2 ∧ s.port = none ∧ t = s.frontTurn) := by
  unfold boundary at h
  split at h
  · exact .inl ⟨‹_›, by simpa using h.symm⟩
  · split at h
    · exact .inr (.inl ⟨by simpa using ‹¬ s.err ≠ 0#2›, _, ‹_›, h⟩)
    · exact .inr (.inr ⟨by simpa using ‹¬ s.err ≠ 0#2›, ‹_›, by simpa using h.symm⟩)

/-- A non-zero `ERR` is taken. -/
theorem boundary_of_err {s : State} (h : s.err ≠ 0#2) : boundary s = .next s.takeErr := by
  rw [boundary, if_pos h]

/-- With `ERR` quiet the word on the port is accepted and executed. -/
theorem boundary_of_word {s : State} {w : CmdWord} (h : s.err = 0#2) (hp : s.port = some w) :
    boundary s = execWord w s.acceptWord := by
  rw [boundary, if_neg (not_not.2 h), hp]

/-- With `ERR` quiet and an empty port the front end has its turn. -/
theorem boundary_of_empty {s : State} (h : s.err = 0#2) (hp : s.port = none) : boundary s = .next s.frontTurn := by
  rw [boundary, if_neg (not_not.2 h), hp]

/-- An arrival that strikes a step in progress cuts it short. -/
theorem boundaryCut_of_word {s t : State} {w : CmdWord} {k : Nat} {a : Arrival} (h : s.err = 0#2)
    (hp : s.port = some w) (ha : a.strikes = true) (ht : boundary s = .next t) :
    boundaryCut k a s = .next (s.acceptWord.cutShort t k a) := by
  rw [boundaryCut, ht]
  simp [h, hp, ha]

/-- What a boundary with an arrival does. -/
theorem boundaryCut_cases {k : Nat} {a : Arrival} {s u : State} (h : boundaryCut k a s = .next u) :
    ∃ t, boundary s = .next t ∧
      ((s.err = 0#2 ∧ s.port.isSome ∧ a.strikes ∧ u = s.acceptWord.cutShort t k a) ∨
        (¬ (s.err = 0#2 ∧ s.port.isSome ∧ a.strikes) ∧ u = t.arrive a)) := by
  unfold boundaryCut at h
  split at h
  · refine ⟨_, ‹_›, ?_⟩
    split at h
    · exact .inl ⟨‹_ ∧ _ ∧ _›.1, ‹_ ∧ _ ∧ _›.2.1, ‹_ ∧ _ ∧ _›.2.2, by simpa using h.symm⟩
    · exact .inr ⟨‹_›, by simpa using h.symm⟩
  · cases h
  · cases h

/-- What an event does. -/
theorem onEvent_cases {ev : Event} {s t : State} (h : onEvent ev s = .next t) :
    (ev = .boundary ∧ boundary s = .next t) ∨
    (∃ k a, ev = .interrupt k a ∧ boundaryCut k a s = .next t) ∨
    (∃ w, ev = .present w ∧ s.port = none ∧ t = { s with port := some w }) ∨
    (ev = .withdraw ∧ t = { s with port := none }) ∨
    (∃ e, ev = .driveErr e ∧ t = s.driveErr e) ∨
    (ev = .reset ∧ t = s.arrive .reset) ∨
    (∃ src, ev = .connect src ∧ t = { s with source := src, sink := ⟨[], s.isOpen, false⟩ }) ∨
    (∃ f, ev = .setFront f ∧ t = { s with front := f }) ∨
    (ev = .shareSink ∧ t = { s with sink := { s.sink with shared := true } }) := by
  cases ev with
  | present w =>
    simp only [onEvent] at h
    split at h
    · cases h
    · simp_all
  | _ => simp_all [onEvent]

/-- A step is the next event, or a boundary where nothing more is to come. -/
theorem step_cases {s t : State} (h : step s = .next t) :
    (s.inbox = [] ∧ boundary s = .next t) ∨
    (∃ ev rest, s.inbox = ev :: rest ∧ onEvent ev { s with inbox := rest } = .next t) := by
  unfold step at h
  split at h
  · exact .inl ⟨‹_›, h⟩
  · exact .inr ⟨_, _, ‹_›, h⟩

theorem runSteps_succ {k : Nat} {s t : State} (h : step s = .next t) : runSteps (k + 1) s = runSteps k t := by
  simp [runSteps, h]

/-- Runs compose. -/
theorem runSteps_add {k m : Nat} {s t : State} (h : runSteps k s = .next t) : runSteps (k + m) s = runSteps m t := by
  induction k generalizing s with
  | zero =>
    simp only [runSteps, Host.Outcome.next.injEq] at h
    rw [h, Nat.zero_add]
  | succ k ih =>
    rw [Nat.add_right_comm]
    cases hs : step s with
    | next u => rw [runSteps_succ hs] at h ⊢; exact ih h
    | fault f => simp [runSteps, hs] at h
    | refused r => simp [runSteps, hs] at h

theorem execAll_cons {i : Instr} {is : List Instr} {s t : State} (h : exec i s = .next t) :
    execAll (i :: is) s = execAll is t := by
  simp [execAll, h]

/-- Command sequences compose. -/
theorem execAll_append {is js : List Instr} {s t : State} (h : execAll is s = .next t) :
    execAll (is ++ js) s = execAll js t := by
  induction is generalizing s with
  | nil =>
    simp only [execAll, Host.Outcome.next.injEq] at h
    rw [h, List.nil_append]
  | cons i is ih =>
    cases hs : exec i s with
    | next u => rw [execAll_cons hs] at h; rw [List.cons_append, execAll_cons hs]; exact ih h
    | fault f => simp [execAll, hs] at h
    | refused r => simp [execAll, hs] at h

/-- The front end's turn touches only the port, the source, its own place and `ERR`. -/
theorem frontTurn_registers (s : State) :
    s.frontTurn.phase = s.phase ∧ s.frontTurn.cur = s.cur ∧ s.frontTurn.runLen = s.runLen ∧
      s.frontTurn.cause = s.cause ∧ s.frontTurn.sink = s.sink := by
  unfold State.frontTurn
  split
  · simp
  · simp
  · unfold State.frontCompress; split
    · simp [State.presentEnd]
    · split <;> simp
  · unfold State.frontExpand; split
    · simp [State.presentEnd]
    · split <;> simp

end Sys2Proof.Machine
end

