-- ==== Sys2Proof/Tests/Slice0.lean ====
section
/-! SUPPORT. Tests: the smoke test of the well-formedness checks, words written out from the spec's encodings, single steps
from the vectors of spec/95_test_vectors.md, and for each obligation with hypotheses a witness that they can be met. -/

namespace Sys2Proof.Tests

open Sys2Proof.Machine

/-- A state after reset with these registers. -/
def regs (p : Phase) (c : Bit) (n : Byte) : State := { State.reset with phase := p, cur := c, runLen := n }

/-- A state in `FAULTED` with this cause. -/
def faulted (c : Cause) : State := { State.reset with phase := .faulted, cause := c }

/-- `END` in `RUN_C` with 7 bits pending, cut short by `a` after both its outputs; a reset is to come. -/
def endCutPastClose (a : Arrival) : State :=
  { regs .runC true 7 with port := some 0x300, inbox := [.interrupt 2 a, .reset] }

/-- What a step shows: `STATUS` and what the sink has accepted. -/
def shows (o : Host.Outcome State Fault Refusal) : Option (BitVec 16 × List Txn) :=
  match o with
  | .next s => some (s.status, s.sink.got)
  | .fault _ => none
  | .refused _ => none

/-- The sink's result after `k` steps. -/
def resultAfter (k : Nat) (s : State) : Option (Option (List Byte)) :=
  match runSteps k s with
  | .next t => some t.sink.output
  | .fault _ => none
  | .refused _ => none

/-- One step of the machine on a command word. -/
def run (s : State) (w : CmdWord) : Option (BitVec 16 × List Txn) := shows (step { s with port := some w })

/-! ## Well-formedness: each check refuses -/

theorem test_wf_refuses_bit : (Line.bit 2).wf = false := by decide
theorem test_wf_refuses_record : (Line.record 256).wf = false := by decide
theorem test_wf_refuses_bits : (Line.bits 2 3).wf = false := by decide
theorem test_wf_refuses_byte : (Line.byte 256).wf = false := by decide
theorem test_wf_refuses_recs : (Line.recs [0, 256]).wf = false := by decide
theorem test_wf_refuses_erecs : (Line.erecs [256, 1]).wf = false := by decide
theorem test_wf_accepts : (Line.recs [0, 255]).wf = true ∧ (Line.bits 1 300).wf = true := by decide

/-! ## Words written out from 30_encoding.md R47 to R50 -/

theorem test_decode_startC : decode 0b0000000000 = .ok .startC := by decide
theorem test_decode_startE : decode 0b0000000001 = .ok .startE := by decide
theorem test_decode_encBit : decode 0b0100000001 = .ok (.encBit true) := by decide
theorem test_decode_decRec : decode 0b1000000101 = .ok (.decRec 5) := by decide
theorem test_decode_endInput : decode 0b1100000000 = .ok .endInput := by decide
/-- The reserved words of vectors X2. -/
theorem test_decode_reserved : decode 0x002 = .error .start ∧ decode 0x0FF = .error .start ∧
    decode 0x102 = .error .bit ∧ decode 0x301 = .error .endInput ∧ decode 0x3FF = .error .endInput := by decide
theorem test_table_word : decodeTableWord 16 0x2A0 = some (.decRec 160) ∧ decodeTableWord 16 0x400 = none := by decide

/-- A placed word is the next command: START_E from reset; and DEC_REC from reset is phase-illegal (vector X1). -/
theorem test_fetch_word : shows (step (State.reset.withFetchWord 16 0x001)) = some (0x0002, []) ∧
    shows (step (State.reset.withFetchWord 16 0x205)) = some (0x000F, []) := by decide

/-! ## Single steps (spec/95_test_vectors.md sections 2.1 to 2.4) -/

/-- S1 -/
theorem test_startC : run State.reset 0x000 = some (0x0001, []) := by decide
/-- S2 -/
theorem test_startE : run State.reset 0x001 = some (0x0002, []) := by decide
/-- EB7: the 256th equal bit. -/
theorem test_encBit_continuation : run (regs .runC false 255) 0x100 = some (0x0101, [.wrec 255, .wrec 0]) := by decide
/-- EB8: exactly 255, then a change. -/
theorem test_encBit_change : run (regs .runC false 255) 0x101 = some (0x0111, [.wrec 255]) := by decide
/-- DR2: a record 0 emits nothing and flips. -/
theorem test_decRec_zero : run (regs .runE true 0) 0x200 = some (0x0002, []) := by decide
/-- DR5 with `n = 3` -/
theorem test_decRec_bits : run (regs .runE false 0) 0x203 = some (0x0012, [.wbit false, .wbit false, .wbit false]) := by
  decide
/-- S6: no continuation pair at the end. -/
theorem test_end_full : run (regs .runC false 255) 0x300 = some (0x0000, [.wrec 255, .close]) := by decide
/-- S5 -/
theorem test_end_expand : run (regs .runE true 0) 0x300 = some (0x0000, [.close]) := by decide
/-- X3: no nesting, no close; the registers still show. -/
theorem test_illegal_nested_start : run (regs .runC false 3) 0x001 = some (0x030F, []) := by decide
/-- X7 -/
theorem test_refused_in_faulted : run (faulted .illegalCommand) 0x000 = some (0x000F, []) := by decide
/-- X8 -/
theorem test_err_stream_exhausted : shows (step { regs .runE true 0 with err := 0b01 }) = some (0x0017, []) := by decide
/-- X9: the first cause is kept. -/
theorem test_err_first_cause : shows (step { faulted .streamExhausted with err := 0b10 }) = some (0x0007, []) := by
  decide
/-- X10: the reserved value counts as `IO_ERROR`. -/
theorem test_err_reserved : shows (step { regs .runC false 3 with err := 0b11 }) = some (0x030B, []) := by decide
/-- R90: an `ERR` after one of the two outputs of EB7. -/
theorem test_err_inside_step :
    shows (step { regs .runC false 255 with port := some 0x100, inbox := [.interrupt 1 (.err 0b10)] })
      = some (0xFF0B, [.wrec 255]) := by decide

/-- R93, R111: `END` cut short past its `CLOSE` by an `ERR` and then a reset, or by a reset, gives no result; the completed
`END` does. -/
theorem test_cut_end_is_no_result :
    (resultAfter 2 (endCutPastClose (.err 0b10)), resultAfter 2 (endCutPastClose .reset),
      resultAfter 2 (endCutPastClose (.err 0b00))) = (some none, some none, some (some [7])) := by decide

/-! ## Streams and functions (spec/95_test_vectors.md sections 1, 2.5 to 2.7) -/

/-- K2, K5 -/
theorem test_pack : pack [true] = [0x80] ∧
    pack [false, false, false, false, true, true, true, false, false, false, false, false] = [0x0E, 0x00] := by decide
/-- W7, W8 -/
theorem test_compress : compress [true] = [0, 1] ∧
    compress [false, false, false, false, true, true, true, false, false, false, false, false] = [4, 3, 5] := by decide
/-- V4, V9 -/
theorem test_expand : expand [5, 0, 3] = List.replicate 8 false ∧ expand [0, 2] = [true, true] := by decide
/-- T2: the tail `101` under `ZeroFill` is 160. -/
theorem test_tail : (Source.mk [true, false, true] .zeroFill).readU8 = some (160, ⟨[], .zeroFill⟩) := by decide
/-- R59: blanks, hex and a comment. -/
theorem test_assemble : assembleText [' ', 'r', 'e', 'c', ' ', '0', 'x', 'F', 'f', ' ', ';', 'n'] = .ok [0x2FF] := by
  decide
/-- R59: "An operand out of range is an assembly error." -/
theorem test_assemble_range : assembleText ['b', 'i', 't', ' ', '2'] = .error .outOfRange := by decide
/-- R61 -/
theorem test_listing : (Txn.wrec 255).listing = ['w', 'r', 'e', 'c', ' ', '2', '5', '5'] ∧
    listingBytes [0x0E, 0x00] = ['[', '0', 'E', ' ', '0', '0', ']'] := by decide

/-! ## Witnesses: the hypotheses of each obligation can be met -/

theorem witness_DecodeEncodeAgree : (Instr.decRec 255).wf = true ∧ decode 0x2FF = .ok (.decRec 255) := by decide
theorem witness_AssemblerNeverIllegal :
    assembleText ['b', 'i', 't', 's', ' ', '1', ',', ' ', '2'] = .ok [0x101, 0x101] := by decide
theorem witness_AssemblyExpansions : assembleLine (.bit 1) = .ok [0x101] ∧ assembleLine (.bit 2) = .error .outOfRange ∧
    assembleLine (.record 255) = .ok [0x2FF] ∧ assembleLine (.record 256) = .error .outOfRange ∧
    assembleLine (.recs [255, 256]) = .error .outOfRange ∧ assembleLine (.erecs [0, 255]) = .ok [0x200, 0x2FF] ∧
    assembleLine (.bits 1 0) = .ok [] ∧ assembleLine (.byte 0x80) =
      .ok [0x101, 0x100, 0x100, 0x100, 0x100, 0x100, 0x100, 0x100] := by decide
theorem witness_StepKeepsInv : StateInv State.reset ∧ ∃ t, step State.reset = .next t :=
  ⟨⟨by decide, by decide, by decide, by decide⟩, _, rfl⟩
theorem witness_ResetEvent : ∃ s : State, s.inbox = [.reset] ∧ s.err ≠ 0#2 ∧ s.phase = .faulted :=
  ⟨{ faulted .ioError with inbox := [.reset], err := 0b10 }, rfl, by decide, rfl⟩
theorem witness_ResetInsideStep : ∃ (s t : State) (outs : List Txn), s.inbox = [.interrupt 1 .reset] ∧
    s.err = 0#2 ∧ s.port = some 0x202 ∧ execWord 0x202 { s with inbox := [], port := none } = .next t ∧
    t.sink.got = s.sink.got ++ outs ∧ outs.length = 2 :=
  ⟨{ regs .runE true 0 with inbox := [.interrupt 1 .reset], port := some 0x202 }, _, _, rfl, rfl, rfl, rfl, rfl, rfl⟩
theorem witness_StartOpensInvocation : State.reset.phase = .idle := rfl
theorem witness_EncBit_counts : (regs .runC true 254).phase = .runC ∧ true = (regs .runC true 254).cur ∧
    (regs .runC true 254).runLen.toNat < 255 := by decide
theorem witness_EncBit_continues : (regs .runC true 255).phase = .runC ∧ true = (regs .runC true 255).cur ∧
    (regs .runC true 255).runLen.toNat = 255 := by decide
theorem witness_EncBit_ends : (regs .runC false 0).phase = .runC ∧ true ≠ (regs .runC false 0).cur := by decide
theorem witness_CounterNeverWraps : (regs .runC true 255).phase = .runC ∧
    ∃ t, exec (.encBit true) (regs .runC true 255) = .next t := ⟨rfl, _, rfl⟩
theorem witness_DecRecWritesRun : (regs .runE true 0).phase = .runE := rfl
theorem witness_End_flushes : (regs .runC true 1).phase = .runC ∧ (regs .runC true 1).runLen ≠ 0#8 := by decide
theorem witness_End_empty : (regs .runC false 0).phase = .runC ∧ (regs .runC false 0).runLen = 0#8 := by decide
theorem witness_End_expand : (regs .runE true 0).phase = .runE := rfl
/-- The words where the clauses meet: `0x001` is legal, `0x002` reserved, `0x200` illegal in the phase. -/
theorem witness_IllegalCommandExactly : State.reset.phase ≠ .faulted ∧ ReservedWord 0x002 ∧
    IllegalIn State.reset.phase ((0x200 : CmdWord).toNat / 256) ∧
    ¬ (ReservedWord 0x001 ∨ IllegalIn State.reset.phase ((0x001 : CmdWord).toNat / 256)) := by
  unfold ReservedWord IllegalIn; decide
theorem witness_Faulted_refuses : ∃ s : State, s.phase = .faulted ∧ s.err = 0#2 ∧ s.port = some 0x000 :=
  ⟨{ faulted .ioError with port := some 0x000 }, rfl, rfl, rfl⟩
theorem witness_Faulted_err : ∃ s : State, s.phase = .faulted ∧ s.err ≠ 0#2 :=
  ⟨{ faulted .ioError with err := 0b01 }, rfl, by decide⟩
theorem witness_Faulted_reset : ∃ s t : State, s.phase = .faulted ∧ step s = .next t ∧ t.phase ≠ .faulted :=
  ⟨{ faulted .ioError with inbox := [.reset] }, _, rfl, rfl, by decide⟩
theorem witness_PhaseWriters : ∃ t, exec .startC State.reset = .next t ∧ t.phase ≠ State.reset.phase :=
  ⟨_, rfl, by decide⟩
theorem witness_CauseWriters_fault : ∃ s t : State, step s = .next t ∧ t.cause ≠ s.cause :=
  ⟨{ State.reset with err := 0b01 }, _, rfl, by decide⟩
theorem witness_CauseWriters_reset : ∃ t : State,
    step { faulted .ioError with inbox := [.reset] } = .next t ∧ t.cause ≠ .ioError := ⟨_, rfl, by decide⟩
theorem witness_OutputsByPhase : ∃ t, exec .endInput (regs .runC true 7) = .next t ∧
    t.sink.got = [.wrec 7, .close] := ⟨_, rfl, rfl⟩
theorem witness_CommandFrame : ∃ t, exec (.decRec 1) (regs .runE true 0) = .next t ∧ t.sink.got = [.wbit true] :=
  ⟨_, rfl, rfl⟩
theorem witness_StepRunsDecoded : ∃ s : State, s.err = 0#2 ∧ s.port = some 0x300 ∧ decode 0x300 = .ok .endInput ∧
    Instr.endInput.wf = true ∧ s.inbox = [.boundary] :=
  ⟨{ regs .runC true 7 with port := some 0x300, inbox := [.boundary] }, rfl, rfl, by decide, rfl, rfl⟩
theorem witness_StepRunsDecoded_nothing_to_come : ∃ s : State, s.err = 0#2 ∧ s.port = some 0x000 ∧
    decode 0x000 = .ok .startC ∧ s.inbox = [] :=
  ⟨{ State.reset with port := some 0x000 }, rfl, rfl, by decide, rfl⟩
theorem witness_BlockWaits : (regs .runE true 0).inbox = [] ∧ (regs .runE true 0).err = 0#2 ∧
    (regs .runE true 0).port = none ∧ (regs .runE true 0).front = .off := by decide
theorem witness_OnlyOverwritingIsRefused :
    step { State.reset with port := some 0x000, inbox := [.present 0x001] } = .refused .commandOverwritten := rfl
theorem witness_ErrTaken : ∃ s t u : State, s.phase ≠ .faulted ∧ s.err = 0b01#2 ∧ t.phase ≠ .faulted ∧
    t.err = 0b10#2 ∧ u.phase ≠ .faulted ∧ u.err = 0b11#2 :=
  ⟨{ State.reset with err := 0b01 }, { regs .runC true 1 with err := 0b10 }, { regs .runE true 0 with err := 0b11 },
    by decide, rfl, by decide, rfl, by decide, rfl⟩
theorem witness_ErrBeatsCommand : ({ State.reset with err := 0b11 } : State).err ≠ 0#2 := by decide
theorem witness_ErrInsideStep : ∃ (s t : State) (outs : List Txn), s.phase ≠ .faulted ∧ s.err = 0#2 ∧
    s.port = some 0x300 ∧ (0b01#2 ≠ 0#2) ∧ execWord 0x300 { s with port := none, inbox := [] } = .next t ∧
    t.sink.got = s.sink.got ++ outs ∧ [.wrec 9] <+: outs :=
  ⟨{ regs .runC true 9 with port := some 0x300 }, _, [.wrec 9, .close], by decide, rfl, rfl, by decide, rfl, rfl,
    ⟨[.close], rfl⟩⟩
theorem witness_SharedSinkHasNoOutput : ∃ s t : State, s.phase = .idle ∧ s.sink.got ≠ [] ∧
    execAll (Mode.start .compress :: [.endInput]) s = .next t :=
  ⟨{ State.reset with sink := { Sink.fresh with got := [.close] } }, _, rfl, by decide, rfl⟩
theorem witness_SharedSinkHasNoOutput_abandoned : ∃ s t : State, s.phase = .idle ∧ s.sink.abandoned = true ∧
    execAll (Mode.start .expand :: [.endInput]) s = .next t :=
  ⟨{ State.reset with sink := { Sink.fresh with abandoned := true } }, _, rfl, rfl, rfl⟩
theorem witness_Failed_fault : ∃ s t : State, (s.phase = .runC ∨ s.phase = .runE) ∧ step s = .next t ∧
    t.phase = .faulted ∧ .close ∈ t.sink.got :=
  ⟨endCutPastClose (.err 0b10), _, .inl rfl, rfl, rfl, by decide⟩
theorem witness_Failed_reset : ∃ s t : State, (s.phase = .runC ∨ s.phase = .runE) ∧ step s = .next t ∧
    ResetNext s ∧ .close ∈ t.sink.got :=
  ⟨endCutPastClose .reset, _, .inl rfl, rfl, ⟨[.reset], .inr ⟨2, rfl⟩⟩, by decide⟩
theorem witness_Failed_later : ∃ s t : State, s.sink.abandoned = true ∧ (∀ src, .connect src ∉ s.inbox) ∧
    runSteps 1 s = .next t ∧ t.phase = .idle :=
  ⟨{ faulted .ioError with sink := ⟨[.close], false, true⟩, inbox := [.reset] }, _, rfl, by simp, rfl, rfl⟩
theorem witness_OnlyOpenInvocationsFail : ∃ s t : State, s.sink.abandoned = false ∧ step s = .next t ∧
    t.sink.abandoned = true :=
  ⟨endCutPastClose .reset, _, rfl, rfl, rfl⟩
theorem witness_OnlyOpen_fault : ∃ s t : State, s.phase = .idle ∧ boundary s = .next t ∧ t.phase = .faulted ∧
    t.sink.output = some [] :=
  ⟨{ State.reset with sink := ⟨[.close], false, false⟩, err := 0b10 }, _, rfl, rfl, rfl, by decide⟩
theorem witness_OnlyOpen_reset : ∃ s t : State, s.phase = .idle ∧ step s = .next t ∧ ResetNext s ∧
    t.sink.output = some [] :=
  ⟨{ State.reset with sink := ⟨[.close], false, false⟩, inbox := [.reset] }, _, rfl, rfl, ⟨[], .inl rfl⟩, by decide⟩
theorem witness_ResultExactlyByEnd_step : ∃ (s t : State) (bytes : List Byte), s.sink.output = none ∧
    step s = .next t ∧ t.sink.output = some bytes :=
  ⟨{ regs .runC true 7 with port := some 0x300 }, _, [7], by decide, rfl, by decide⟩
theorem witness_ResultExactlyByEnd_end : (regs .runE true 0).phase = .runE ∧ (regs .runE true 0).sink.shared = false ∧
    (regs .runE true 0).sink.abandoned = false ∧ .close ∉ (regs .runE true 0).sink.got ∧
    (regs .runE true 0).cause = .noFault := by decide
/-- The first bit and the last padding position of a one-bit output. -/
theorem witness_PackPlacesBits : 0 < 8 * (pack [true]).length ∧ 7 < 8 * (pack [true]).length := by decide
theorem witness_TailPolicyRead : ([true] : List Bit) ≠ [] ∧ ([true] : List Bit).length < 8 ∧
    (List.replicate 7 true) ≠ [] ∧ (List.replicate 7 true).length < 8 := by decide
theorem witness_FlushIsOneRecordOrNone : State.reset.phase = .idle ∧ (regs .runC true 255).phase = .runC := by decide
theorem witness_EmptyInput : State.reset.phase = .idle ∧ State.reset.sink = Sink.fresh := by decide
theorem witness_ContinuationFires : (regs .runC true 1).phase = .runC ∧ (regs .runC true 1).runLen = 1#8 := by decide
theorem witness_CompressByRuns : State.reset.phase = .idle ∧ State.reset.sink = Sink.fresh := by decide
theorem witness_RunEncoding : encodeRun 1 = [1] ∧ encodeRun 255 = [255] ∧ encodeRun 256 = [255, 0, 1] := by decide
theorem witness_Alternation : State.reset.phase = .idle := rfl
theorem witness_ExpandByIndex : State.reset.phase = .idle ∧ State.reset.sink = Sink.fresh := by decide
/-- For CompressInvocation, ExpandInvocation and MachineRoundTrip. -/
theorem witness_Invocation : State.reset.phase = .idle ∧ State.reset.cause = .noFault := by decide
theorem witness_TailedInvocation : ([true, false, true] : List Bit) ≠ [] ∧ ([true, false, true] : List Bit).length < 8 ∧
    State.reset.phase = .idle ∧ State.reset.cause = .noFault := by decide

end Sys2Proof.Tests
end

/-! ## The commands, each in the phase that allows it -/

namespace Sys2Proof.Machine

/-- Each command of the dispatch completes, whatever the phase: its arm answers the state of a phase check. -/
theorem exec_answers (i : Instr) (s : State) : ∃ t, exec i s = .next t := by
  cases i with
  | startC => exact ⟨_, rfl⟩
  | startE => exact ⟨_, rfl⟩
  | encBit b => exact ⟨_, rfl⟩
  | decRec n => exact ⟨_, rfl⟩
  | endInput => exact ⟨_, rfl⟩

/-- Settles O26: every arm of the dispatch completes with a next state. -/
theorem commandsNeverStop : Obligations.CommandsNeverStop := exec_answers

theorem exec_startC_of_idle {s : State} (h : s.phase = .idle) :
    exec .startC s = .next (s.openInvocation .runC) := by
  rw [exec, execStartC, State.guarded_legal] <;> simp [h]

theorem exec_startE_of_idle {s : State} (h : s.phase = .idle) :
    exec .startE s = .next (s.openInvocation .runE) := by
  rw [exec, execStartE, State.guarded_legal] <;> simp [h]

theorem exec_encBit_of_runC {s : State} (b : Bit) (h : s.phase = .runC) :
    exec (.encBit b) s = .next (s.countBit b) := by
  rw [exec, execEncBit, State.guarded_legal] <;> simp [h]

theorem exec_decRec_of_runE {s : State} (n : Byte) (h : s.phase = .runE) :
    exec (.decRec n) s = .next (s.writeRun n) := by
  rw [exec, execDecRec, State.guarded_legal] <;> simp [h]

theorem exec_endInput_of_open {s : State} (h : s.phase = .runC ∨ s.phase = .runE) :
    exec .endInput s = .next s.closeInvocation := by
  rw [exec, execEndInput, State.guarded_legal] <;> rcases h with h | h <;> simp [h]

@[simp] theorem State.countBit_phase (s : State) (b : Bit) : (s.countBit b).phase = s.phase := rfl
@[simp] theorem State.countBit_cur (s : State) (b : Bit) :
    (s.countBit b).cur = (encodeBit b s.cur s.runLen).1 := rfl
@[simp] theorem State.countBit_runLen (s : State) (b : Bit) :
    (s.countBit b).runLen = (encodeBit b s.cur s.runLen).2.1 := rfl

@[simp] theorem State.writeRun_phase (s : State) (n : Byte) : (s.writeRun n).phase = s.phase := rfl
@[simp] theorem State.writeRun_cur (s : State) (n : Byte) : (s.writeRun n).cur = !s.cur := rfl

/-! ## Whole inputs as command sequences -/

/-- The block after the rest of an invocation begun in `s` has emitted `ts` and then closed (40_control.md R65). -/
def State.closedWith (s : State) (ts : List Txn) : State :=
  { s.emit (ts ++ [.close]) with phase := .idle, cur := false, runLen := 0#8 }

@[simp] theorem State.closedWith_phase (s : State) (ts : List Txn) : (s.closedWith ts).phase = .idle := rfl
@[simp] theorem State.closedWith_cause (s : State) (ts : List Txn) : (s.closedWith ts).cause = s.cause := rfl
@[simp] theorem State.closedWith_sink (s : State) (ts : List Txn) :
    (s.closedWith ts).sink = s.sink.accept (ts ++ [.close]) := rfl

theorem State.closeInvocation_eq (s : State) : s.closeInvocation = s.closedWith s.pendingRecord := rfl

/-- What one bit emits comes before what the rest of the invocation emits. -/
theorem State.closedWith_countBit (s : State) (b : Bit) (ts : List Txn) :
    (s.countBit b).closedWith ts =
      s.closedWith ((encodeBit b s.cur s.runLen).2.2.map .wrec ++ ts) := by
  simp [State.closedWith, State.countBit, State.emit, Sink.accept]

/-- What one record emits comes before what the rest of the invocation emits. -/
theorem State.closedWith_writeRun (s : State) (n : Byte) (ts : List Txn) :
    (s.writeRun n).closedWith ts = s.closedWith (List.replicate n.toNat (.wbit s.cur) ++ ts) := by
  simp [State.closedWith, State.writeRun, State.emit, Sink.accept, repeatBit, recordLength]

theorem compressFrom_cons (b : Bit) (bs : List Bit) (cur : Bit) (n : Byte) :
    compressFrom cur n (b :: bs) = (encodeBit b cur n).2.2 ++
      compressFrom (encodeBit b cur n).1 (encodeBit b cur n).2.1 bs := rfl

/-- The flush of `END` in `RUN_C` is what the encoder emits at the end of its input (41_compress.md R70). -/
theorem State.pendingRecord_of_runC {s : State} (h : s.phase = .runC) :
    s.pendingRecord = (compressFrom s.cur s.runLen []).map .wrec := by
  by_cases hn : s.runLen = 0#8 <;> simp [State.pendingRecord, compressFrom, h, hn]

theorem State.pendingRecord_of_runE {s : State} (h : s.phase = .runE) : s.pendingRecord = [] := by
  simp [State.pendingRecord, h]

/-- From any state in `RUN_C`, the bits of an input and `END` emit the records of the encoder, then `CLOSE`. -/
theorem execAll_encBits_end (bs : List Bit) {s : State} (h : s.phase = .runC) :
    execAll (bs.map .encBit ++ [.endInput]) s =
      .next (s.closedWith ((compressFrom s.cur s.runLen bs).map .wrec)) := by
  induction bs generalizing s with
  | nil =>
    rw [List.map_nil, List.nil_append, execAll_cons (exec_endInput_of_open (.inl h)), execAll,
      State.closeInvocation_eq, State.pendingRecord_of_runC h]
  | cons b bs ih =>
    rw [List.map_cons, List.cons_append, execAll_cons (exec_encBit_of_runC b h), ih (by simpa using h),
      State.closedWith_countBit, compressFrom_cons, List.map_append, State.countBit_cur, State.countBit_runLen]

/-- From any state in `RUN_E`, the records of an input and `END` emit the bits of the decoder, then `CLOSE`. -/
theorem execAll_decRecs_end (es : List Byte) {s : State} (h : s.phase = .runE) :
    execAll (es.map .decRec ++ [.endInput]) s = .next (s.closedWith ((expandFrom s.cur es).map .wbit)) := by
  induction es generalizing s with
  | nil =>
    rw [List.map_nil, List.nil_append, execAll_cons (exec_endInput_of_open (.inr h)), execAll,
      State.closeInvocation_eq, State.pendingRecord_of_runE h]
    rfl
  | cons n es ih =>
    rw [List.map_cons, List.cons_append, execAll_cons (exec_decRec_of_runE n h), ih (by simpa using h),
      State.closedWith_writeRun, expandFrom, List.map_append, List.map_replicate, State.writeRun_cur]

/-- 41_compress.md R72 on the machine: the commands of a compress invocation from `IDLE`. -/
theorem execAll_compressCommands (bs : List Bit) {s : State} (h : s.phase = .idle) :
    execAll (compressCommands bs) s =
      .next ((s.openInvocation .runC).closedWith ((compress bs).map .wrec)) := by
  rw [compressCommands, List.cons_append, execAll_cons (exec_startC_of_idle h), execAll_encBits_end bs rfl]
  rfl

/-- 42_expand.md R80 on the machine: the commands of an expand invocation from `IDLE`. -/
theorem execAll_expandCommands (es : List Byte) {s : State} (h : s.phase = .idle) :
    execAll (expandCommands es) s =
      .next ((s.openInvocation .runE).closedWith ((expand es).map .wbit)) := by
  rw [expandCommands, List.cons_append, execAll_cons (exec_startE_of_idle h), execAll_decRecs_end es rfl]
  rfl

/-! ## Bytes, bits and packing -/

@[simp] theorem bitsOfByte_length (x : Byte) : (bitsOfByte x).length = 8 := rfl

theorem bitsOfBytes_cons (x : Byte) (xs : List Byte) :
    bitsOfBytes (x :: xs) = bitsOfByte x ++ bitsOfBytes xs := rfl

theorem bitsOfBytes_length (xs : List Byte) : (bitsOfBytes xs).length = 8 * xs.length := by
  induction xs with
  | nil => rfl
  | cons x xs ih => rw [bitsOfBytes_cons, List.length_append, ih, bitsOfByte_length, List.length_cons]; omega

/-- The bits of a byte, the first one most significant, make that byte again (00_scope.md R8). -/
theorem byteOfBits_bitsOfByte (x : Byte) : byteOfBits (bitsOfByte x) = x := by
  revert x; decide

/-- Eight bits at the start of a byte fill it. -/
theorem pack_bitsOfByte_append (x : Byte) (bs : List Bit) : pack (bitsOfByte x ++ bs) = x :: pack bs := by
  have hpack : pack (bitsOfByte x ++ bs) = byteOfBits (bitsOfByte x) :: pack bs := by
    simp [pack, packFrom, bitsOfByte]
  rw [hpack, byteOfBits_bitsOfByte]

/-- The sink's packing undoes reading bytes as bits (20_memory.md R35). -/
theorem pack_bitsOfBytes (xs : List Byte) : pack (bitsOfBytes xs) = xs := by
  induction xs with
  | nil => rfl
  | cons x xs ih => rw [bitsOfBytes_cons, pack_bitsOfByte_append, ih]

/-- `SrcReadU(8)` takes a whole byte, whatever follows it and under either policy (20_memory.md R27). -/
theorem Source.readU8_bitsOfByte_append (x : Byte) (bs : List Bit) (p : TailPolicy) :
    (Source.mk (bitsOfByte x ++ bs) p).readU8 = some (x, ⟨bs, p⟩) := by
  have htake : (bitsOfByte x ++ bs).take 8 = bitsOfByte x := rfl
  have hdrop : (bitsOfByte x ++ bs).drop 8 = bs := rfl
  simp [Source.readU8, htake, hdrop, byteOfBits_bitsOfByte]

/-! ## The result of a closed invocation -/

/-- A sink whose only `CLOSE` came last is closed. -/
theorem stageOf_append_close {ts : List Txn} (h : .close ∉ ts) : stageOf (ts ++ [.close]) = .closed := by
  induction ts with
  | nil => rfl
  | cons t ts ih =>
    rw [List.mem_cons, not_or] at h
    obtain ⟨ht, hts⟩ := h
    cases t with
    | close => exact absurd rfl ht
    | wbit b => exact ih hts
    | wrec n => exact ih hts

/-- An invocation opened on a fresh sink with no fault recorded, that has emitted `ts` and then closed, has succeeded with
the packed bits of `ts` (70_reset_and_hazards.md R111, R112). -/
theorem succeeded_closedWith {s : State} (p : Phase) {ts : List Txn} (hc : s.cause = .noFault)
    (hk : s.sink = Sink.fresh) (hts : .close ∉ ts) :
    Succeeded ((s.openInvocation p).closedWith ts) (pack (ts.flatMap Txn.bits)) where
  idle := rfl
  noFault := hc
  result := by
    rw [Sink.output_eq_some]
    simp [hk, stageOf_append_close hts, Sink.bits, Txn.bits]

/-- The bits of records written are those bytes read as bits. -/
theorem flatMap_bits_wrec (es : List Byte) : (es.map Txn.wrec).flatMap Txn.bits = bitsOfBytes es := by
  rw [List.flatMap_map]; rfl

theorem flatMap_bits_wbit (bs : List Bit) : (bs.map Txn.wbit).flatMap Txn.bits = bs := by
  rw [List.flatMap_map]; exact List.flatMap_singleton' bs

theorem Succeeded.of_records {s : State} (p : Phase) (es : List Byte) (hc : s.cause = .noFault)
    (hk : s.sink = Sink.fresh) : Succeeded ((s.openInvocation p).closedWith (es.map .wrec)) es := by
  have h := succeeded_closedWith p (ts := es.map .wrec) hc hk (by simp)
  rwa [flatMap_bits_wrec, pack_bitsOfBytes] at h

theorem Succeeded.of_bits {s : State} (p : Phase) (bs : List Bit) (hc : s.cause = .noFault)
    (hk : s.sink = Sink.fresh) : Succeeded ((s.openInvocation p).closedWith (bs.map .wbit)) (pack bs) := by
  have h := succeeded_closedWith p (ts := bs.map .wbit) hc hk (by simp)
  rwa [flatMap_bits_wbit] at h

/-! ## The front end's turns as a command sequence -/

theorem decode_encode (i : Instr) : decode (encode i) = .ok i := by
  cases i with
  | startC => decide
  | startE => decide
  | encBit b => cases b <;> decide
  | decRec n => simp [decode, encode]
  | endInput => decide

/-- `s` with its front end at `f` and the source `src` connected. -/
def State.hosted (s : State) (f : Front) (src : Source) : State := { s with front := f, source := src }

/-- The block waits for a command: nothing is to come from outside, `ERR` is quiet and the port is empty. -/
structure Waits (s : State) : Prop where
  inbox : s.inbox = []
  err : s.err = 0#2
  port : s.port = none

/-- A body that ignores the front end and the source keeps doing so behind the phase check. -/
theorem State.guarded_hosted (s : State) (f : Front) (src : Source) (legal : Phase → Bool) {body : State → State}
    (hb : body (s.hosted f src) = (body s).hosted f src) :
    (s.hosted f src).guarded legal body = (s.guarded legal body).hosted f src := by
  have hphase : (s.hosted f src).phase = s.phase := rfl
  unfold State.guarded
  rw [hphase]
  split
  · rfl
  · split
    · exact hb
    · rfl

/-- No command looks at the front end or the source (20_memory.md R43). -/
theorem exec_hosted {i : Instr} {s t : State} (f : Front) (src : Source) (h : exec i s = .next t) :
    exec i (s.hosted f src) = .next (t.hosted f src) := by
  cases i <;>
    · cases h
      exact congrArg Host.Outcome.next (s.guarded_hosted f src _ rfl)

/-- A command leaves the block waiting (10_state.md R19): it touches neither the ports nor what is to come. -/
theorem Waits.exec {i : Instr} {s t : State} (hw : Waits s) (h : exec i s = .next t) : Waits t := by
  obtain ⟨hinbox, herr, hport⟩ := hw
  rcases exec_cases h with ⟨-, rfl⟩ | ⟨-, rfl⟩ | ⟨-, -, rfl⟩ | ⟨-, -, rfl⟩ | ⟨b, -, -, rfl⟩ | ⟨n, -, -, rfl⟩ |
    ⟨-, -, rfl⟩ <;> exact ⟨hinbox, herr, hport⟩

/-- The front end at `f` with the source `src` presents the command `i`, and then stands at `f'` with `src'`. -/
def TurnPresents (f : Front) (src : Source) (i : Instr) (f' : Front) (src' : Source) : Prop :=
  ∀ s : State, (s.hosted f src).frontTurn = (s.hosted f' src').presentCommand i

/-- The front end at `f` with the source `src` presents these commands one by one, and then stands at `f'` with `src'`. -/
inductive Feeds : Front → Source → List Instr → Front → Source → Prop where
  | done (f : Front) (src : Source) : Feeds f src [] f src
  | turn {f f₁ f₂ : Front} {src src₁ src₂ : Source} {i : Instr} {is : List Instr} :
      TurnPresents f src i f₁ src₁ → Feeds f₁ src₁ is f₂ src₂ → Feeds f src (i :: is) f₂ src₂

theorem Feeds.append {f f₁ f₂ : Front} {src src₁ src₂ : Source} {is js : List Instr}
    (h : Feeds f src is f₁ src₁) (h' : Feeds f₁ src₁ js f₂ src₂) : Feeds f src (is ++ js) f₂ src₂ := by
  induction h with
  | done => exact h'
  | turn hi _ ih => exact .turn hi (ih h')

/-- One round of a waiting block: the front end presents a command, and the next boundary executes it. -/
theorem runSteps_turn {f f' : Front} {src src' : Source} {i : Instr} {s t : State} (hw : Waits s)
    (hturn : TurnPresents f src i f' src') (h : exec i s = .next t) :
    runSteps 2 (s.hosted f src) = .next (t.hosted f' src') := by
  obtain ⟨hinbox, herr, hport⟩ := hw
  have hpresent : step (s.hosted f src) = .next ((s.hosted f' src').presentCommand i) := by
    rw [← hturn s, step, show (s.hosted f src).inbox = [] from hinbox]
    exact boundary_of_empty herr hport
  have haccept : ((s.hosted f' src').presentCommand i).acceptWord = s.hosted f' src' := by
    simp [State.acceptWord, State.presentCommand, State.hosted, hport]
  have hexec : step ((s.hosted f' src').presentCommand i) = .next (t.hosted f' src') := by
    rw [step, show ((s.hosted f' src').presentCommand i).inbox = [] from hinbox]
    rw [boundary_of_word (s := (s.hosted f' src').presentCommand i) herr rfl, haccept, execWord, decode_encode]
    exact exec_hosted f' src' h
  rw [runSteps_succ hpresent, runSteps_succ hexec, runSteps]

/-- A front end that feeds a waiting block runs exactly its command sequence, in two steps for each command. -/
theorem runSteps_of_feeds {f f' : Front} {src src' : Source} {is : List Instr} (hf : Feeds f src is f' src')
    {s t : State} (hw : Waits s) (h : execAll is s = .next t) :
    runSteps (2 * is.length) (s.hosted f src) = .next (t.hosted f' src') := by
  induction hf generalizing s with
  | done f src => cases h; rfl
  | @turn _ _ _ _ _ _ i is hi _ ih =>
    obtain ⟨u, hu⟩ := exec_answers i s
    rw [execAll_cons hu] at h
    rw [List.length_cons, Nat.mul_succ, Nat.add_comm, runSteps_add (runSteps_turn hw hi hu)]
    exact ih (hw.exec hu) h

/-! ## What the front end loops feed (20_memory.md R29, R30) -/

theorem feeds_start (m : Mode) (src : Source) : Feeds (.starting m) src [m.start] (.looping m) src :=
  .turn (fun _ => rfl) (.done _ _)

/-- An exhausted source ends the loop of either mode. -/
theorem feeds_end (m : Mode) (p : TailPolicy) : Feeds (.looping m) ⟨[], p⟩ [.endInput] .off ⟨[], p⟩ := by
  cases m with
  | compress => exact .turn (fun _ => rfl) (.done _ _)
  | expand => exact .turn (fun _ => rfl) (.done _ _)

theorem feeds_bits (bs : List Bit) (p : TailPolicy) :
    Feeds (.looping .compress) ⟨bs, p⟩ (bs.map .encBit) (.looping .compress) ⟨[], p⟩ := by
  induction bs with
  | nil => exact .done _ _
  | cons b bs ih => exact .turn (fun _ => rfl) ih

/-- The expand loop feeds the whole bytes of its source, whatever follows them. -/
theorem feeds_records (es : List Byte) (rest : List Bit) (p : TailPolicy) :
    Feeds (.looping .expand) ⟨bitsOfBytes es ++ rest, p⟩ (es.map .decRec) (.looping .expand) ⟨rest, p⟩ := by
  induction es with
  | nil => exact .done _ _
  | cons n es ih =>
    refine .turn (fun s => ?_) ih
    have hread := Source.readU8_bitsOfByte_append n (bitsOfBytes es ++ rest) p
    rw [bitsOfBytes_cons, List.append_assoc]
    simp only [State.frontTurn, State.frontExpand, State.hosted, hread]
    rfl

theorem feeds_compressCommands (bs : List Bit) (p : TailPolicy) :
    Feeds (.starting .compress) ⟨bs, p⟩ (compressCommands bs) .off ⟨[], p⟩ :=
  ((feeds_start .compress _).append (feeds_bits bs p)).append (feeds_end .compress p)

theorem feeds_expandCommands (es : List Byte) (p : TailPolicy) :
    Feeds (.starting .expand) ⟨bitsOfBytes es, p⟩ (expandCommands es) .off ⟨[], p⟩ := by
  have h := ((feeds_start .expand _).append (feeds_records es [] p)).append (feeds_end .expand p)
  rwa [List.append_nil] at h

/-! ## Whole invocations -/

theorem State.boot_hosted (s : State) (m : Mode) (src : Source) :
    (s.boot m src).hosted (.starting m) src = s.boot m src := rfl

theorem waits_boot (s : State) (m : Mode) (src : Source) : Waits (s.boot m src) := ⟨rfl, rfl, rfl⟩

/-- The rest of the host does not take part in a result. -/
theorem Succeeded.hosted {s : State} {bytes : List Byte} (h : Succeeded s bytes) (f : Front) (src : Source) :
    Succeeded (s.hosted f src) bytes := ⟨h.idle, h.noFault, h.result⟩

/-- A booted compress invocation succeeds with the records of `compress`. -/
theorem compress_boot_succeeds (bs : List Bit) (p : TailPolicy) {s : State} (hp : s.phase = .idle)
    (hc : s.cause = .noFault) :
    ∃ t, runSteps (2 * (bs.length + 2)) (s.boot .compress ⟨bs, p⟩) = .next t ∧ Succeeded t (compress bs) := by
  have hrun := runSteps_of_feeds (feeds_compressCommands bs p) (waits_boot s .compress ⟨bs, p⟩)
    (execAll_compressCommands bs hp)
  rw [State.boot_hosted, show (compressCommands bs).length = bs.length + 2 by simp [compressCommands]] at hrun
  exact ⟨_, hrun, (Succeeded.of_records (s := s.boot .compress ⟨bs, p⟩) .runC _ hc rfl).hosted _ _⟩

/-- A booted expand invocation over whole bytes succeeds with the packed bits of `expand`, under either policy. -/
theorem expand_boot_succeeds (es : List Byte) (p : TailPolicy) {s : State} (hp : s.phase = .idle)
    (hc : s.cause = .noFault) :
    ∃ t, runSteps (2 * (es.length + 2)) (s.boot .expand ⟨bitsOfBytes es, p⟩) = .next t ∧
      Succeeded t (pack (expand es)) := by
  have hrun := runSteps_of_feeds (feeds_expandCommands es p) (waits_boot s .expand ⟨bitsOfBytes es, p⟩)
    (execAll_expandCommands es hp)
  rw [State.boot_hosted, show (expandCommands es).length = es.length + 2 by simp [expandCommands]] at hrun
  exact ⟨_, hrun, (Succeeded.of_bits (s := s.boot .expand ⟨bitsOfBytes es, p⟩) .runE _ hc rfl).hosted _ _⟩

/-! ## The round trip -/

/-- A record 0 flips the value back, so the next run goes on with the same one (42_expand.md R78). -/
theorem expandFrom_continuation (v : Bit) (n : Byte) (es : List Byte) :
    expandFrom v (n :: 0#8 :: es) = List.replicate n.toNat v ++ expandFrom v es := by
  simp [expandFrom]

/-- Decoding what the encoder emits from the pair `(cur, n)` gives the `n` bits already counted, then the input. -/
theorem expandFrom_compressFrom (bs : List Bit) (cur : Bit) (n : Byte) :
    expandFrom cur (compressFrom cur n bs) = List.replicate n.toNat cur ++ bs := by
  induction bs generalizing cur n with
  | nil => by_cases hn : n = 0#8 <;> simp [compressFrom, expandFrom, hn]
  | cons b bs ih =>
    rw [compressFrom_cons]
    by_cases hb : b = cur
    · by_cases hn : n < Config.maxRun
      · have hsucc : (n + 1#8).toNat = n.toNat + 1 := by
          have : n.toNat < 255 := hn
          rw [BitVec.toNat_add]; simp; omega
        rw [encodeBit_counts hb hn, List.nil_append, ih, hsucc, hb, List.replicate_succ', List.append_assoc]
        rfl
      · have hfull : n = Config.maxRun := by
          have : ¬ n.toNat < 255 := hn
          have := n.isLt
          exact BitVec.eq_of_toNat_eq (show n.toNat = 255 by omega)
        rw [encodeBit_continues hb hn, List.cons_append, List.singleton_append, expandFrom_continuation, ih, hfull, hb]
        rfl
    · have hflip : (!cur) = b := by cases b <;> cases cur <;> simp_all
      rw [encodeBit_ends hb, List.singleton_append, expandFrom, hflip, ih]
      rfl

/-- 42_expand.md R81 (a). -/
theorem expand_compress (bs : List Bit) : expand (compress bs) = bs :=
  expandFrom_compressFrom bs false 0#8

/-- Settles O51: both invocations run the commands of their front ends, and `expand` undoes `compress`. -/
theorem machineRoundTrip : Obligations.MachineRoundTrip := by
  intro X p q s hphase hcause
  obtain ⟨t, hrun, ht⟩ := compress_boot_succeeds (bitsOfBytes X) p hphase hcause
  obtain ⟨u, hrun', hu⟩ := expand_boot_succeeds (compress (bitsOfBytes X)) q ht.idle ht.noFault
  rw [bitsOfBytes_length] at hrun
  rw [expand_compress, pack_bitsOfBytes] at hu
  exact ⟨t, _, u, hrun, ht, hrun', hu⟩

end Sys2Proof.Machine

/-! ## The registers through a step (10_state.md R13, R21) -/

namespace Sys2Proof.Machine

/-- The block's four registers (10_state.md R13). -/
def State.registers (s : State) : Phase × Bit × Byte × Cause := (s.phase, s.cur, s.runLen, s.cause)

theorem State.registers_eq_iff {s t : State} :
    t.registers = s.registers ↔ t.phase = s.phase ∧ t.cur = s.cur ∧ t.runLen = s.runLen ∧ t.cause = s.cause := by
  simp [State.registers]

@[simp] theorem State.settlePort_registers (s : State) : s.settlePort.registers = s.registers := by
  simp [State.registers]

@[simp] theorem State.frontTurn_registers_eq (s : State) : s.frontTurn.registers = s.registers := by
  obtain ⟨hphase, hcur, hrunLen, hcause, -⟩ := frontTurn_registers s
  exact State.registers_eq_iff.2 ⟨hphase, hcur, hrunLen, hcause⟩

/-- The reset event puts the registers at their values of 10_state.md R23, whatever they were. -/
theorem State.arrive_reset_registers (s : State) : (s.arrive .reset).registers = State.reset.registers := by
  rw [State.arrive, State.settlePort_registers]
  rfl

/-- One move of the registers without a reset: they are held, a command executes, or a fault is entered. -/
inductive RegisterMove (s : State) : State → Prop where
  | held {t : State} : t.registers = s.registers → RegisterMove s t
  | command {i : Instr} {t : State} : exec i s = .next t → RegisterMove s t
  | fault {c : Cause} : s.phase ≠ .faulted → c ≠ .noFault → RegisterMove s (s.raise c)

/-- What happens to the registers until a reset: finitely many moves. -/
abbrev RegisterMoves : State → State → Prop := Relation.ReflTransGen RegisterMove

theorem registerMoves_of_held {s t : State} (h : t.registers = s.registers) : RegisterMoves s t :=
  .single (.held h)

theorem registerMoves_after_held {s s' t : State} (hmoves : RegisterMoves s' t) (h : s'.registers = s.registers) :
    RegisterMoves s t := (registerMoves_of_held h).trans hmoves

theorem registerMoves_takeErr (s : State) : RegisterMoves s s.takeErr := by
  unfold State.takeErr State.raiseErr
  split
  · exact .refl
  next herr =>
    split
    · exact registerMoves_of_held (by simp)
    next hphase =>
      exact .tail (.single (.fault hphase (mt errCause_eq_noFault.1 herr))) (.held (by simp))

/-- An `ERR` that lands moves the registers as one taken at a boundary does. -/
theorem registerMoves_arrive_err (s : State) (e : BitVec 2) : RegisterMoves s (s.arrive (.err e)) :=
  registerMoves_after_held (registerMoves_takeErr (s.driveErr e)) rfl

theorem registerMoves_illegalWord (s : State) : RegisterMoves s s.illegalWord := by
  unfold State.illegalWord
  rcases s.guarded_cases (fun _ => false) id with ⟨-, h⟩ | ⟨-, h, -⟩ | ⟨hphase, -, h⟩
  · exact registerMoves_of_held (by rw [h])
  · cases h
  · rw [h]
    exact .single (.fault hphase (by decide))

theorem registerMoves_of_execWord {w : CmdWord} {s t : State} (h : execWord w s = .next t) : RegisterMoves s t := by
  rcases execWord_cases h with ⟨i, -, hi⟩ | ⟨r, -, rfl⟩
  · exact .single (.command hi)
  · exact registerMoves_illegalWord s

theorem registerMoves_of_boundary {s t : State} (h : boundary s = .next t) : RegisterMoves s t := by
  rcases boundary_cases h with ⟨-, rfl⟩ | ⟨-, w, -, hw⟩ | ⟨-, -, rfl⟩
  · exact registerMoves_takeErr s
  · exact registerMoves_after_held (registerMoves_of_execWord hw) rfl
  · exact registerMoves_of_held (by simp)

/-- Without the arrival of a reset an interrupted boundary moves the registers too; with it they are reset. -/
theorem registers_of_boundaryCut {k : Nat} {a : Arrival} {s u : State} (h : boundaryCut k a s = .next u) :
    RegisterMoves s u ∨ (a = .reset ∧ u.registers = State.reset.registers) := by
  obtain ⟨t, ht, hu⟩ := boundaryCut_cases h
  cases a with
  | reset =>
    rcases hu with ⟨-, -, -, rfl⟩ | ⟨-, rfl⟩ <;> exact .inr ⟨rfl, State.arrive_reset_registers _⟩
  | err e =>
    rcases hu with ⟨-, -, -, rfl⟩ | ⟨-, rfl⟩
    · exact .inl (registerMoves_after_held (registerMoves_arrive_err _ e) rfl)
    · exact .inl ((registerMoves_of_boundary ht).trans (registerMoves_arrive_err t e))

/-- What a step does to the registers: it moves them, or a reset comes next and they are at their reset values. -/
theorem registers_of_step {s t : State} (h : step s = .next t) :
    RegisterMoves s t ∨ (ResetNext s ∧ t.registers = State.reset.registers) := by
  rcases step_cases h with ⟨-, hb⟩ | ⟨ev, rest, hinbox, hev⟩
  · exact .inl (registerMoves_of_boundary hb)
  · rcases onEvent_cases hev with ⟨-, hb⟩ | ⟨k, a, rfl, hcut⟩ | ⟨w, -, -, rfl⟩ | ⟨-, rfl⟩ | ⟨e, -, rfl⟩ |
      ⟨rfl, rfl⟩ | ⟨src, -, rfl⟩ | ⟨f, -, rfl⟩ | ⟨-, rfl⟩
    · exact .inl (registerMoves_after_held (registerMoves_of_boundary hb) rfl)
    · rcases registers_of_boundaryCut hcut with hmoves | ⟨rfl, hreset⟩
      · exact .inl (registerMoves_after_held hmoves rfl)
      · exact .inr ⟨⟨rest, .inr ⟨k, hinbox⟩⟩, hreset⟩
    · exact .inl (registerMoves_of_held rfl)
    · exact .inl (registerMoves_of_held rfl)
    · exact .inl (registerMoves_of_held rfl)
    · exact .inr ⟨⟨rest, .inl hinbox⟩, State.arrive_reset_registers _⟩
    · exact .inl (registerMoves_of_held rfl)
    · exact .inl (registerMoves_of_held rfl)
    · exact .inl (registerMoves_of_held rfl)

/-! ## The invariants (10_state.md R21) -/

/-- Settles O11: in `IDLE` with no cause, clause (a) is by the reset values and the others say nothing. -/
theorem resetMeetsInv : Obligations.ResetMeetsInv where
  idle_clear := fun _ => ⟨rfl, rfl⟩
  runC_counted := nofun
  runE_unused := nofun
  cause_faulted := by decide

theorem StateInv.of_registers_eq {s t : State} (h : t.registers = s.registers) (hs : StateInv s) : StateInv t := by
  obtain ⟨hphase, hcur, hrunLen, hcause⟩ := State.registers_eq_iff.1 h
  obtain ⟨ha, hc, he, hf⟩ := hs
  constructor <;> rw [hphase]
  · rwa [hcur, hrunLen]
  · rwa [hcur, hrunLen]
  · rwa [hrunLen]
  · rwa [hcause]

/-- Fault entry records a cause, from any state. -/
theorem stateInv_raise (s : State) {c : Cause} (hc : c ≠ .noFault) : StateInv (s.raise c) where
  idle_clear := nofun
  runC_counted := nofun
  runE_unused := nofun
  cause_faulted := by
    by_cases h : s.cause = .noFault <;> simp [h, hc]

/-- The encoder counts at least the bit it has just met: after it the counter is not 0 (41_compress.md R75). -/
theorem one_le_encodeBit_runLen (b cur : Bit) (n : Byte) : 1 ≤ (encodeBit b cur n).2.1.toNat := by
  by_cases hb : b = cur
  · by_cases hn : n < Config.maxRun
    · rw [encodeBit_counts hb hn]
      have : n.toNat < 255 := hn
      simp only [BitVec.toNat_add, BitVec.toNat_ofNat]
      omega
    · simp [encodeBit_continues hb hn]
  · simp [encodeBit_ends hb]

@[simp] theorem State.countBit_cause (s : State) (b : Bit) : (s.countBit b).cause = s.cause := rfl
@[simp] theorem State.writeRun_runLen (s : State) (n : Byte) : (s.writeRun n).runLen = s.runLen := rfl
@[simp] theorem State.writeRun_cause (s : State) (n : Byte) : (s.writeRun n).cause = s.cause := rfl
@[simp] theorem State.closedWith_cur (s : State) (ts : List Txn) : (s.closedWith ts).cur = false := rfl
@[simp] theorem State.closedWith_runLen (s : State) (ts : List Txn) : (s.closedWith ts).runLen = 0#8 := rfl

theorem ne_faulted_of_open {s : State} (h : s.phase = .runC ∨ s.phase = .runE) : s.phase ≠ .faulted := by
  rcases h with h | h <;> simp [h]

/-- A command that takes effect runs outside `FAULTED`, where no cause is recorded, and records none. -/
theorem StateInv.exec {i : Instr} {s t : State} (hs : StateInv s) (h : exec i s = .next t) : StateInv t := by
  have hcause : s.phase ≠ .faulted → s.cause = .noFault := hs.cause_faulted.2
  rcases exec_cases h with ⟨-, rfl⟩ | ⟨-, rfl⟩ | ⟨-, hp, rfl⟩ | ⟨-, hp, rfl⟩ | ⟨b, -, hp, rfl⟩ | ⟨n, -, hp, rfl⟩ |
    ⟨-, hp, rfl⟩
  · exact hs
  · exact stateInv_raise s (by decide)
  · constructor <;> simp [hcause, hp]
  · constructor <;> simp [hcause, hp]
  · constructor <;> simp [hcause, hp, one_le_encodeBit_runLen]
  · constructor <;> simp [hcause, hp, hs.runE_unused hp]
  · constructor <;> simp [State.closeInvocation_eq, hcause (ne_faulted_of_open hp)]

theorem StateInv.registerMove {s t : State} (hs : StateInv s) (h : RegisterMove s t) : StateInv t := by
  cases h with
  | held h => exact hs.of_registers_eq h
  | command h => exact hs.exec h
  | fault _ hc => exact stateInv_raise s hc

theorem StateInv.registerMoves {s t : State} (hs : StateInv s) (h : RegisterMoves s t) : StateInv t := by
  induction h with
  | refl => exact hs
  | tail _ hmove ih => exact ih.registerMove hmove

/-- Settles O12: a step moves the registers, and every move keeps the invariants, or it resets them. -/
theorem stepKeepsInv : Obligations.StepKeepsInv := by
  intro s t hs h
  rcases registers_of_step h with hmoves | ⟨-, hreset⟩
  · exact hs.registerMoves hmoves
  · exact resetMeetsInv.of_registers_eq hreset

/-! ## The writers of `phase` and `cause`, and what no command touches (10_state.md R13, R14, R17) -/

theorem faultEntry_raise (s : State) (c : Cause) : FaultEntry s (s.raise c) c :=
  ⟨rfl, rfl, rfl, rfl, rfl, rfl⟩

/-- Settles O22: of the cases of `exec` the others keep `phase`. -/
theorem phaseWriters : Obligations.PhaseWriters := by
  intro i s t h hne
  rcases exec_cases h with ⟨-, rfl⟩ | ⟨-, rfl⟩ | ⟨hi, hp, rfl⟩ | ⟨hi, hp, rfl⟩ | ⟨b, -, -, rfl⟩ | ⟨n, -, -, rfl⟩ |
    ⟨hi, hp, rfl⟩
  · exact absurd rfl hne
  · exact .inr (.inr (.inr (faultEntry_raise s .illegalCommand)))
  · exact .inl ⟨hi, hp, rfl⟩
  · exact .inr (.inl ⟨hi, hp, rfl⟩)
  · exact absurd (s.countBit_phase b) hne
  · exact absurd (s.writeRun_phase n) hne
  · exact .inr (.inr (.inl ⟨hi, hp, rfl⟩))

/-- `cause` is kept or first recorded by fault entry, and `FAULTED` is not left. -/
structure CauseKept (s t : State) : Prop where
  cause : t.cause = s.cause ∨ (s.cause = .noFault ∧ t.phase = .faulted)
  faulted : s.phase = .faulted → t.phase = .faulted

theorem CauseKept.refl (s : State) : CauseKept s s := ⟨.inl rfl, id⟩

theorem CauseKept.trans {s t u : State} (hst : CauseKept s t) (htu : CauseKept t u) : CauseKept s u where
  cause := by
    rcases hst.cause with hs | ⟨hs, ht⟩
    · rw [← hs]
      exact htu.cause
    · exact .inr ⟨hs, htu.faulted ht⟩
  faulted := htu.faulted ∘ hst.faulted

theorem causeKept_raise (s : State) (c : Cause) : CauseKept s (s.raise c) where
  cause := by by_cases h : s.cause = .noFault <;> simp [h]
  faulted := fun _ => rfl

theorem CauseKept.of_exec {i : Instr} {s t : State} (h : exec i s = .next t) : CauseKept s t := by
  rcases exec_cases h with ⟨-, rfl⟩ | ⟨-, rfl⟩ | ⟨-, hp, rfl⟩ | ⟨-, hp, rfl⟩ | ⟨b, -, -, rfl⟩ | ⟨n, -, -, rfl⟩ |
    ⟨-, hp, rfl⟩
  · exact .refl t
  · exact causeKept_raise s .illegalCommand
  · exact ⟨.inl rfl, by simp [hp]⟩
  · exact ⟨.inl rfl, by simp [hp]⟩
  · exact ⟨.inl rfl, id⟩
  · exact ⟨.inl rfl, id⟩
  · exact ⟨.inl rfl, fun hf => absurd hf (ne_faulted_of_open hp)⟩

theorem CauseKept.of_registerMoves {s t : State} (h : RegisterMoves s t) : CauseKept s t := by
  induction h with
  | refl => exact .refl s
  | tail _ hmove ih =>
    refine ih.trans ?_
    cases hmove with
    | held h =>
      obtain ⟨hphase, -, -, hcause⟩ := State.registers_eq_iff.1 h
      exact ⟨.inl hcause, hphase.trans⟩
    | command h => exact .of_exec h
    | fault _ _ => exact causeKept_raise _ _

/-- Settles O23: without a reset `cause` is kept or first recorded, and a reset puts the registers at their reset values. -/
theorem causeWriters : Obligations.CauseWriters := by
  intro s t h hne
  rcases registers_of_step h with hmoves | ⟨hnext, hreset⟩
  · exact .inl ((CauseKept.of_registerMoves hmoves).cause.resolve_left hne)
  · obtain ⟨hphase, hcur, hrunLen, hcause⟩ := State.registers_eq_iff.1 hreset
    exact .inr ⟨hcause, hphase, hcur, hrunLen, hnext⟩

/-- Settles O25: in each case of `exec` only the registers and the sink are written. -/
theorem commandFrame : Obligations.CommandFrame := by
  intro i s t h
  rcases exec_cases h with ⟨-, rfl⟩ | ⟨-, rfl⟩ | ⟨-, -, rfl⟩ | ⟨-, -, rfl⟩ | ⟨b, -, -, rfl⟩ | ⟨n, -, -, rfl⟩ |
    ⟨-, -, rfl⟩ <;> exact ⟨rfl, rfl, rfl, rfl, rfl, rfl⟩

/-! ## `STATUS`, the codes and the reset values (10_state.md R14, R17, R18, R23) -/

/-- A concatenation as a number: the high part is shifted by the width of the low one. -/
theorem toNat_append_eq_add {m n : Nat} (x : BitVec m) (y : BitVec n) :
    (x ++ y).toNat = 2 ^ n * x.toNat + y.toNat := by
  rw [BitVec.toNat_append, ← Nat.shiftLeft_add_eq_or_of_lt y.isLt, Nat.shiftLeft_eq, Nat.mul_comm]

theorem State.status_toNat (s : State) :
    s.status.toNat = 256 * s.runLen.toNat + 16 * s.cur.toNat + 4 * s.cause.code.toNat + s.phase.code.toNat := by
  simp only [State.status, toNat_append_eq_add, BitVec.toNat_ofBool, BitVec.toNat_ofNat]
  omega

/-- A field of a word, from its quotient and remainder. -/
theorem extractLsb'_eq_of_toNat {w i k : Nat} {x : BitVec w} {y : BitVec k}
    (h : x.toNat / 2 ^ i % 2 ^ k = y.toNat) : x.extractLsb' i k = y := by
  apply BitVec.eq_of_toNat_eq
  rw [BitVec.extractLsb'_toNat, Nat.shiftRight_eq_div_pow, h]

/-- Settles O8: every field is cut out of the sum of R18, whose other terms lie above or below it. -/
theorem statusFields : Obligations.StatusFields := by
  intro s
  have hsum := s.status_toNat
  have hcur := s.cur.toNat_lt
  have hcause := s.cause.code.isLt
  have hphase := s.phase.code.isLt
  refine ⟨hsum, ?_, ?_, ?_, ?_, ?_⟩
  · exact extractLsb'_eq_of_toNat (by omega)
  · exact extractLsb'_eq_of_toNat (by omega)
  · have hbit : s.status.toNat / 2 ^ 4 % 2 = s.cur.toNat := by omega
    rw [BitVec.getLsbD, Nat.testBit_eq_decide_div_mod_eq, hbit]
    cases s.cur <;> rfl
  · exact extractLsb'_eq_of_toNat (by rw [BitVec.toNat_ofNat]; omega)
  · exact extractLsb'_eq_of_toNat (by omega)

/-- Settles O9: the table of each code function. -/
theorem phaseAndCauseCodes : Obligations.PhaseAndCauseCodes :=
  ⟨rfl, rfl, rfl, rfl, rfl, rfl, rfl, rfl⟩

/-- Settles O10: the reset state is a literal, and `STATUS` is computed from it. -/
theorem resetValues : Obligations.ResetValues :=
  ⟨rfl, rfl, rfl, rfl, rfl⟩

/-! ## A placed word (10_state.md R19) -/

/-- Every command word fits the 16 bits of its table row. -/
theorem tableWord_toNat (w : CmdWord) : tableWord 16 w.toNat = some w := by
  have hmod : w.toNat % 2 ^ 16 = w.toNat := by have := w.isLt; omega
  rw [tableWord, hmod, if_pos w.isLt, BitVec.ofNat_toNat, BitVec.setWidth_eq]

/-- Settles O28: the placed word is on the port at the next boundary, where decoding inverts encoding. -/
theorem fetchWordRuns : Obligations.FetchWordRuns := by
  intro s i
  constructor
  · rw [decodeTableWord, tableWord_toNat]
    simp only [decode_encode]
  · rw [State.withFetchWord, tableWord_toNat]
    calc step (s.withCommand (some (encode i)))
      _ = execWord (encode i) { s with port := none, err := 0#2 } := rfl
      _ = exec i { s with port := none, err := 0#2 } := by rw [execWord, decode_encode]

end Sys2Proof.Machine

/-! ## The closed forms of the two operations (41_compress.md R73; 42_expand.md R80) -/

namespace Sys2Proof.Machine

/-- A run the counter can hold is one record. -/
theorem encodeRun_toNat (n : Byte) : encodeRun n.toNat = [n] := by
  have hq : (n.toNat - 1) / 255 = 0 := by have := n.isLt; omega
  simp [encodeRun, hq]

/-- A full counter with the run going on is a continuation pair before the rest of the run. -/
theorem encodeRun_add_maxRun {l : Nat} (hl : l ≠ 0) : encodeRun (255 + l) = 255#8 :: 0#8 :: encodeRun l := by
  have hq : (255 + l - 1) / 255 = (l - 1) / 255 + 1 := by omega
  have hr : 255 + l - 255 * ((l - 1) / 255 + 1) = l - 255 * ((l - 1) / 255) := by omega
  rw [encodeRun, hq, hr, List.replicate_succ]
  rfl

/-- Bits of the value the runs begin with lengthen the first run. -/
theorem runsFrom_replicate_append (v : Bit) (k : Nat) {bs : List Bit} {l : Nat} {ls : List Nat}
    (h : runsFrom v bs = l :: ls) : runsFrom v (List.replicate k v ++ bs) = (k + l) :: ls := by
  induction k with
  | zero => simpa using h
  | succ k ih =>
    rw [List.replicate_succ, List.cons_append, runsFrom, ih, Nat.add_right_comm]
    exact if_pos rfl

/-- Where nothing of another value follows, they are the only run. -/
theorem runsFrom_replicate (v : Bit) {k : Nat} (hk : k ≠ 0) : runsFrom v (List.replicate k v) = [k] := by
  obtain ⟨m, rfl⟩ := Nat.exists_eq_succ_of_ne_zero hk
  have hlast : runsFrom v [v] = [1] := if_pos rfl
  rw [List.replicate_succ']
  exact runsFrom_replicate_append v m hlast

/-- The first run is not empty where the list begins with its value. -/
theorem exists_runsFrom_cons (v : Bit) (bs : List Bit) : ∃ l ls, l ≠ 0 ∧ runsFrom v (v :: bs) = l :: ls := by
  cases h : runsFrom v bs with
  | nil => exact ⟨1, [], by simp [runsFrom, h]⟩
  | cons l ls => exact ⟨l + 1, ls, by simp [runsFrom, h]⟩

/-- The first run is empty where it begins with the other value. -/
theorem runsFrom_cons_of_ne {b v : Bit} (h : b ≠ v) (bs : List Bit) :
    runsFrom v (b :: bs) = 0 :: runsFrom b (b :: bs) := by
  simp [runsFrom, h]

/-- A counter that is not below `MAX_RUN` is at it. -/
theorem eq_maxRun_of_not_lt {n : Byte} (h : ¬ n < Config.maxRun) : n = Config.maxRun := by
  have hn : ¬ n.toNat < 255 := h
  have := n.isLt
  exact BitVec.eq_of_toNat_eq (show n.toNat = 255 by omega)

/-- Below it the counter counts on without a wrap (41_compress.md R75). -/
theorem toNat_add_one_of_lt_maxRun {n : Byte} (h : n < Config.maxRun) : (n + 1#8).toNat = n.toNat + 1 := by
  have hn : n.toNat < 255 := h
  rw [BitVec.toNat_add, BitVec.toNat_ofNat]
  omega

/-- The encoder from the pair `(cur, n)` encodes the runs of the `n` bits already counted and the input. -/
theorem compressFrom_eq_encodeRuns (bs : List Bit) (cur : Bit) (n : Byte) :
    compressFrom cur n bs = (runsFrom cur (List.replicate n.toNat cur ++ bs)).flatMap encodeRun := by
  induction bs generalizing cur n with
  | nil =>
    by_cases hn : n = 0#8
    · subst hn; rfl
    · have hne : n.toNat ≠ 0 := fun h => hn (BitVec.eq_of_toNat_eq h)
      rw [List.append_nil, runsFrom_replicate cur hne, List.flatMap_singleton, encodeRun_toNat]
      exact if_pos hn
  | cons b bs ih =>
    rw [compressFrom_cons]
    by_cases hb : b = cur
    · subst hb
      by_cases hn : n < Config.maxRun
      · rw [encodeBit_counts rfl hn, List.nil_append, ih, toNat_add_one_of_lt_maxRun hn, List.replicate_succ',
          List.append_assoc, List.singleton_append]
      · obtain ⟨l, ls, hl, hruns⟩ := exists_runsFrom_cons b bs
        have hone : List.replicate (1#8).toNat b ++ bs = b :: bs := rfl
        rw [encodeBit_continues rfl hn, ih, hone, eq_maxRun_of_not_lt hn, runsFrom_replicate_append b _ hruns, hruns,
          List.flatMap_cons, List.flatMap_cons, show (Config.maxRun).toNat = 255 from rfl, encodeRun_add_maxRun hl]
        rfl
    · have hone : List.replicate (1#8).toNat b ++ bs = b :: bs := rfl
      rw [encodeBit_ends hb, ih, hone, runsFrom_replicate_append cur _ (runsFrom_cons_of_ne hb bs), List.flatMap_cons,
        Nat.add_zero, encodeRun_toNat]

/-- 41_compress.md R73. -/
theorem compress_eq_compressByRuns (bs : List Bit) : compress bs = compressByRuns bs :=
  compressFrom_eq_encodeRuns bs false 0#8

theorem alternation_succ (i : Nat) : alternation (i + 1) = !alternation i := by
  unfold alternation
  rcases Nat.mod_two_eq_zero_or_one i with h | h <;> simp [Nat.add_mod, h]

/-- The decoder from the value of record `i` writes each later record as the value of its index (42_expand.md R77). -/
theorem expandFrom_alternation (es : List Byte) (i : Nat) :
    expandFrom (alternation i) es =
      ((es.zipIdx i).map (fun (n, j) => List.replicate n.toNat (alternation j))).flatten := by
  induction es generalizing i with
  | nil => rfl
  | cons n es ih => rw [expandFrom, ← alternation_succ, ih]; rfl

/-- 42_expand.md R80. -/
theorem expand_eq_expandByIndex (es : List Byte) : expand es = expandByIndex es :=
  expandFrom_alternation es 0

/-! ## Invocations over whole inputs (20_memory.md R29, R30) -/

/-- A front end run from boot on ends where its command sequence does. -/
theorem runSteps_boot {m : Mode} {src src' : Source} {f' : Front} {is : List Instr} {s t : State}
    (hf : Feeds (.starting m) src is f' src') (h : execAll is (s.boot m src) = .next t) :
    runSteps (2 * is.length) (s.boot m src) = .next (t.hosted f' src') :=
  runSteps_of_feeds hf (waits_boot s m src) h

theorem compressCommands_length (bs : List Bit) : (compressCommands bs).length = bs.length + 2 := by
  simp [compressCommands]

theorem expandCommands_length (es : List Byte) : (expandCommands es).length = es.length + 2 := by
  simp [expandCommands]

@[simp] theorem recordsOf_map_wrec_append (es : List Byte) (ts : List Txn) :
    recordsOf (es.map .wrec ++ ts) = es ++ recordsOf ts := by
  induction es with
  | nil => rfl
  | cons n es ih => exact congrArg (n :: ·) ih

/-- Settles O48: the front end feeds `compressCommands S`, which emit the records of `compress S` and then `CLOSE`. -/
theorem compressInvocation : Obligations.CompressInvocation := by
  intro S p s hphase hcause
  have hrun := runSteps_boot (feeds_compressCommands S p) (execAll_compressCommands S hphase)
  rw [compressCommands_length, compress_eq_compressByRuns] at hrun
  refine ⟨_, hrun, (Succeeded.of_records (s := s.boot .compress ⟨S, p⟩) .runC _ hcause rfl).hosted _ _, ?_⟩
  exact (recordsOf_map_wrec_append _ [.close]).trans (List.append_nil _)

/-- Settles O49: the front end feeds `expandCommands E`, and `expand` has its closed form. -/
theorem expandInvocation : Obligations.ExpandInvocation := by
  intro E p s hphase hcause
  rw [← expand_eq_expandByIndex]
  exact expand_boot_succeeds E p hphase hcause

end Sys2Proof.Machine

/-! ## Bits in a byte and in a packed stream (20_memory.md R33 to R37) -/

namespace Sys2Proof.Machine

theorem bitsValue_append_singleton (bs : List Bit) (b : Bit) : bitsValue (bs ++ [b]) = Nat.bit b (bitsValue bs) := by
  rw [bitsValue, List.foldl_append, Nat.bit_val]
  rfl

/-- The last bit read is the least significant one (00_scope.md R8). -/
theorem testBit_bitsValue (bs : List Bit) (j : Nat) : (bitsValue bs).testBit j = (bs.reverse[j]?).getD false := by
  induction bs using List.reverseRecOn generalizing j with
  | nil => simp [bitsValue]
  | append_singleton bs b ih =>
    rw [bitsValue_append_singleton, List.reverse_concat]
    cases j with
    | zero => simp
    | succ j => rw [Nat.testBit_bit_succ, ih, List.getElem?_cons_succ]

/-- Bit `k` of at most 8 bits stands at position `7 - k` of their byte, with zeros behind the last (R34, R37). -/
theorem getLsbD_byteOfBits {bs : List Bit} (h : bs.length ≤ 8) {k : Nat} (hk : k < 8) :
    (byteOfBits bs).getLsbD (7 - k) = (bs[k]?).getD false := by
  have hlength : (bs ++ List.replicate (8 - bs.length) false).length = 8 := by
    rw [List.length_append, List.length_replicate]; omega
  have hindex : 8 - 1 - (7 - k) = k := by omega
  rw [byteOfBits, BitVec.getLsbD_ofNat, testBit_bitsValue, List.getElem?_reverse (by omega), hlength, hindex,
    decide_eq_true (by omega : 7 - k < 8), Bool.true_and]
  by_cases hkbs : k < bs.length
  · rw [List.getElem?_append_left hkbs]
  · have hpad : k - bs.length < 8 - bs.length := by omega
    rw [List.getElem?_append_right (by omega), List.getElem?_eq_none (l := bs) (by omega),
      List.getElem?_replicate, if_pos hpad]
    rfl

/-- A byte read as bits has bit `7 - k` in place `k` (R32). -/
theorem getElem?_bitsOfByte (x : Byte) {k : Nat} (hk : k < 8) : (bitsOfByte x)[k]? = some (x.getLsbD (7 - k)) := by
  interval_cases k <;> rfl

/-- Bit `k` of a byte string read as bits is bit `7 - (k mod 8)` of byte `k div 8` (R32). -/
theorem getElem?_bitsOfBytes (xs : List Byte) (k : Nat) :
    (bitsOfBytes xs)[k]? = (xs[k / 8]?).map (·.getLsbD (7 - k % 8)) := by
  induction xs generalizing k with
  | nil => rfl
  | cons x xs ih =>
    rw [bitsOfBytes_cons]
    by_cases hk : k < 8
    · rw [List.getElem?_append_left hk, getElem?_bitsOfByte x hk, Nat.div_eq_of_lt hk, Nat.mod_eq_of_lt hk]
      rfl
    · have hdiv : k / 8 = (k - 8) / 8 + 1 := by omega
      have hmod : (k - 8) % 8 = k % 8 := by omega
      rw [List.getElem?_append_right (by simpa using hk), bitsOfByte_length, ih, hmod, hdiv, List.getElem?_cons_succ]

/-- Eight bits are the bits of their byte. -/
theorem bitsOfByte_byteOfBits {bs : List Bit} (h : bs.length = 8) : bitsOfByte (byteOfBits bs) = bs := by
  apply List.ext_getElem?
  intro k
  by_cases hk : k < 8
  · rw [getElem?_bitsOfByte _ hk, getLsbD_byteOfBits h.le hk, List.getElem?_eq_getElem (by omega)]
    rfl
  · rw [List.getElem?_eq_none (by simpa using hk), List.getElem?_eq_none (by omega)]

/-- Every bit list is whole bytes and a tail of at most 7 bits. -/
theorem exists_eq_bitsOfBytes_append (bs : List Bit) :
    ∃ (xs : List Byte) (tail : List Bit), bs = bitsOfBytes xs ++ tail ∧ tail.length < 8 := by
  by_cases h : bs.length < 8
  · exact ⟨[], bs, rfl, h⟩
  · obtain ⟨xs, tail, hdrop, htail⟩ := exists_eq_bitsOfBytes_append (bs.drop 8)
    have htake : bitsOfByte (byteOfBits (bs.take 8)) = bs.take 8 :=
      bitsOfByte_byteOfBits (by rw [List.length_take]; omega)
    refine ⟨byteOfBits (bs.take 8) :: xs, tail, ?_, htail⟩
    rw [bitsOfBytes_cons, htake, List.append_assoc, ← hdrop, List.take_append_drop]
termination_by bs.length
decreasing_by rw [List.length_drop]; omega

theorem pack_bitsOfBytes_append (xs : List Byte) (bs : List Bit) : pack (bitsOfBytes xs ++ bs) = xs ++ pack bs := by
  induction xs with
  | nil => rfl
  | cons x xs ih => rw [bitsOfBytes_cons, List.append_assoc, pack_bitsOfByte_append, ih]; rfl

/-- Bits that fill no byte are held until the end, which pads them (R34). -/
theorem packFrom_of_short (held bs : List Bit) (hne : held ++ bs ≠ []) (h : (held ++ bs).length < 8) :
    packFrom held bs = [byteOfBits (held ++ bs)] := by
  induction bs generalizing held with
  | nil =>
    rw [List.append_nil] at hne ⊢
    exact if_neg hne
  | cons b bs ih =>
    have hfull : held.length ≠ 7 := by rw [List.length_append, List.length_cons] at h; omega
    rw [packFrom, if_neg hfull, ih (held ++ [b]) (by simp) (by simpa using h), List.append_assoc, List.singleton_append]

/-- A tail becomes one padded byte. -/
theorem pack_tail {tail : List Bit} (hne : tail ≠ []) (h : tail.length < 8) : pack tail = [byteOfBits tail] :=
  packFrom_of_short [] tail hne h

theorem pack_length_of_short {tail : List Bit} (h : tail.length < 8) : (pack tail).length = (tail.length + 7) / 8 := by
  by_cases hne : tail = []
  · subst hne; rfl
  · have := List.length_pos_iff.2 hne
    rw [pack_tail hne h, List.length_singleton]
    omega

/-- `pack` gives `ceil(K/8)` bytes (R34). -/
theorem pack_length (bs : List Bit) : (pack bs).length = (bs.length + 7) / 8 := by
  obtain ⟨xs, tail, rfl, htail⟩ := exists_eq_bitsOfBytes_append bs
  rw [pack_bitsOfBytes_append, List.length_append, List.length_append, bitsOfBytes_length, pack_length_of_short htail]
  omega

/-- Settles O35: a bit of the whole bytes is in its byte, and a bit behind them is in the padded tail. -/
theorem packPlacesBits : Obligations.PackPlacesBits := by
  intro B
  refine ⟨pack_length B, fun k hk => ?_⟩
  rw [pack_length] at hk
  obtain ⟨xs, tail, rfl, htail⟩ := exists_eq_bitsOfBytes_append B
  rw [List.length_append, bitsOfBytes_length] at hk
  rw [pack_bitsOfBytes_append]
  by_cases hwhole : k / 8 < xs.length
  · refine ⟨xs[k / 8], (List.getElem?_append_left hwhole).trans (List.getElem?_eq_getElem hwhole), ?_⟩
    rw [List.getElem?_append_left (by rw [bitsOfBytes_length]; omega), getElem?_bitsOfBytes,
      List.getElem?_eq_getElem hwhole]
    rfl
  · have hbyte : k / 8 = xs.length := by omega
    have hplace : k - 8 * xs.length = k % 8 := by omega
    have hne : tail ≠ [] := by rintro rfl; rw [List.length_nil] at hk; omega
    refine ⟨byteOfBits tail, by simp [hbyte, pack_tail hne htail], ?_⟩
    rw [List.getElem?_append_right (by rw [bitsOfBytes_length]; omega), bitsOfBytes_length, hplace]
    exact getLsbD_byteOfBits htail.le (Nat.mod_lt k (by decide))

/-! ## The source's reads (20_memory.md R27, R37) -/

/-- A tail is not read under `Fault`. -/
theorem Source.readU8_tail_fault {tail : List Bit} (h : tail.length < 8) : (Source.mk tail .fault).readU8 = none := by
  simp [Source.readU8, h]

/-- Under `ZeroFill` it is read whole. -/
theorem Source.readU8_tail_zeroFill {tail : List Bit} (hne : tail ≠ []) (h : tail.length < 8) :
    (Source.mk tail .zeroFill).readU8 = some (byteOfBits tail, ⟨[], .zeroFill⟩) := by
  simp [Source.readU8, h, hne]

/-- Settles O36: packing undoes reading bytes as bits, and each read takes what stands first. -/
theorem sourceInvertsSink : Obligations.SourceInvertsSink :=
  ⟨pack_bitsOfBytes, fun x X p => Source.readU8_bitsOfByte_append x (bitsOfBytes X) p, fun _ _ _ => rfl,
    fun _ => ⟨rfl, rfl⟩⟩

/-- Settles O37: `Fault` refuses the read, and `ZeroFill` completes the tail to a byte. -/
theorem tailPolicyRead : Obligations.TailPolicyRead := by
  intro tail hne h
  exact ⟨Source.readU8_tail_fault h, byteOfBits tail, Source.readU8_tail_zeroFill hne h,
    fun _ hk => getLsbD_byteOfBits h.le hk⟩

/-! ## An expand input with a tail (20_memory.md R37; 70_reset_and_hazards.md R107) -/

/-- The block after the records `es` of an expand invocation (42_expand.md R76, R77). -/
def State.writeRuns (s : State) (es : List Byte) : State :=
  { s.emit ((expandFrom s.cur es).map .wbit) with cur := not^[es.length] s.cur }

@[simp] theorem State.writeRuns_phase (s : State) (es : List Byte) : (s.writeRuns es).phase = s.phase := rfl
@[simp] theorem State.writeRuns_cause (s : State) (es : List Byte) : (s.writeRuns es).cause = s.cause := rfl
@[simp] theorem State.writeRuns_sink (s : State) (es : List Byte) :
    (s.writeRuns es).sink = s.sink.accept ((expandFrom s.cur es).map .wbit) := rfl

theorem State.writeRuns_nil (s : State) : s.writeRuns [] = s := by
  simp [State.writeRuns, State.emit, Sink.accept, expandFrom]

theorem State.writeRuns_cons (s : State) (n : Byte) (es : List Byte) :
    s.writeRuns (n :: es) = (s.writeRun n).writeRuns es := by
  simp [State.writeRuns, State.writeRun, State.emit, Sink.accept, expandFrom, repeatBit, recordLength]

/-- From any state in `RUN_E`, the records of an input emit the bits of the decoder. -/
theorem execAll_decRecs (es : List Byte) {s : State} (h : s.phase = .runE) :
    execAll (es.map .decRec) s = .next (s.writeRuns es) := by
  induction es generalizing s with
  | nil => rw [State.writeRuns_nil]; rfl
  | cons n es ih =>
    rw [List.map_cons, execAll_cons (exec_decRec_of_runE n h), ih (by simpa using h), State.writeRuns_cons]

/-- `START_E` and the records from `IDLE`. -/
theorem execAll_startE_decRecs (es : List Byte) {s : State} (h : s.phase = .idle) :
    execAll (.startE :: es.map .decRec) s = .next ((s.openInvocation .runE).writeRuns es) := by
  rw [execAll_cons (exec_startE_of_idle h), execAll_decRecs es rfl]

/-- Commands leave a waiting block waiting. -/
theorem Waits.execAll {is : List Instr} {s t : State} (hw : Waits s) (h : execAll is s = .next t) : Waits t := by
  induction is generalizing s with
  | nil => cases h; exact hw
  | cons i is ih =>
    obtain ⟨u, hu⟩ := exec_answers i s
    exact ih (hw.exec hu) (by rwa [execAll_cons hu] at h)

theorem Waits.hosted {s : State} (hw : Waits s) (f : Front) (src : Source) : Waits (s.hosted f src) :=
  ⟨hw.inbox, hw.err, hw.port⟩

/-- A waiting block gives the front end its turn (20_memory.md R29, R30). -/
theorem step_of_waits {s : State} (hw : Waits s) : step s = .next s.frontTurn := by
  rw [step, hw.inbox]
  exact boundary_of_empty hw.err hw.port

theorem errStreamExhausted_ne_zero : errStreamExhausted ≠ 0#2 := by decide

/-- A level that the adapters drive on a waiting block faults it at the next boundary (60_exceptions.md R89). -/
theorem step_driveErr_of_waits {s : State} (hw : Waits s) (hp : s.phase ≠ .faulted) {e : BitVec 2} (he : e ≠ 0#2) :
    step (s.driveErr e) = .next ((s.driveErr e).raise (errCause e)) := by
  have htake : (s.driveErr e).takeErr = (s.driveErr e).raise (errCause e) := by
    rw [State.takeErr, State.driveErr_err, if_neg he, State.raiseErr, State.driveErr_phase, if_neg hp]
    exact State.settlePort_of_none hw.port
  rw [step, State.driveErr_inbox, hw.inbox, ← htake]
  exact boundary_of_err he

/-- The read of a tail fails under `Fault`, and the adapter drives `StreamExhausted` (60_exceptions.md R85). -/
theorem frontTurn_tail_fault (s : State) {tail : List Bit} (hne : tail ≠ []) (h : tail.length < 8) :
    (s.hosted (.looping .expand) ⟨tail, .fault⟩).frontTurn =
      (s.hosted (.looping .expand) ⟨tail, .fault⟩).driveErr errStreamExhausted := by
  simp [State.hosted, State.frontTurn, State.frontExpand, Source.isExhausted, hne, Source.readU8_tail_fault h]

/-- An expand loop that meets such a tail faults the block in two steps. -/
theorem runSteps_tail_fault {s : State} (hw : Waits s) (hp : s.phase ≠ .faulted) {tail : List Bit} (hne : tail ≠ [])
    (h : tail.length < 8) :
    runSteps 2 (s.hosted (.looping .expand) ⟨tail, .fault⟩) =
      .next (((s.hosted (.looping .expand) ⟨tail, .fault⟩).driveErr errStreamExhausted).raise .streamExhausted) := by
  have hwaits := hw.hosted (.looping .expand) ⟨tail, .fault⟩
  rw [runSteps_succ ((step_of_waits hwaits).trans (congrArg _ (frontTurn_tail_fault s hne h))),
    runSteps_succ (step_driveErr_of_waits hwaits hp errStreamExhausted_ne_zero)]
  rfl

theorem Sink.output_of_abandoned {k : Sink} (h : k.abandoned = true) : k.output = none := by
  simp [Sink.output, h]

/-- Under `ZeroFill` the expand loop feeds a tail as one record more. -/
theorem feeds_tail {tail : List Bit} (hne : tail ≠ []) (h : tail.length < 8) :
    Feeds (.looping .expand) ⟨tail, .zeroFill⟩ [.decRec (byteOfBits tail)] (.looping .expand) ⟨[], .zeroFill⟩ := by
  refine .turn (fun s => ?_) (.done _ _)
  simp only [State.frontTurn, State.frontExpand, State.hosted, Source.isExhausted, List.isEmpty_iff, hne, if_false,
    Source.readU8_tail_zeroFill hne h]
  rfl

theorem feeds_tailedCommands (es : List Byte) {tail : List Bit} (hne : tail ≠ []) (h : tail.length < 8) :
    Feeds (.starting .expand) ⟨bitsOfBytes es ++ tail, .zeroFill⟩ (expandCommands (es ++ [byteOfBits tail])) .off
      ⟨[], .zeroFill⟩ := by
  have hfeeds := (((feeds_start .expand _).append (feeds_records es tail .zeroFill)).append
    (feeds_tail hne h)).append (feeds_end .expand .zeroFill)
  simpa [expandCommands, Mode.start] using hfeeds

/-- Under `Fault`: the whole records are decoded and the read of the tail faults the block. -/
theorem expand_boot_faults (es : List Byte) {tail : List Bit} (hne : tail ≠ []) (h : tail.length < 8) {s : State}
    (hp : s.phase = .idle) (hc : s.cause = .noFault) :
    ∃ t, runSteps (2 * (es.length + 2)) (s.boot .expand ⟨bitsOfBytes es ++ tail, .fault⟩) = .next t ∧
      t.phase = .faulted ∧ t.cause = .streamExhausted ∧ t.sink.got = (expand es).map .wbit ∧ t.sink.output = none := by
  have hexec := execAll_startE_decRecs es (s := s.boot .expand ⟨bitsOfBytes es ++ tail, .fault⟩) hp
  have hrun := runSteps_boot ((feeds_start .expand _).append (feeds_records es tail .fault)) hexec
  have hfault := runSteps_tail_fault ((waits_boot s _ _).execAll hexec) (by simp) hne h
  have hlength : ([Mode.start .expand] ++ es.map Instr.decRec).length = es.length + 1 := by simp
  rw [hlength] at hrun
  exact ⟨_, (runSteps_add hrun).trans hfault, rfl, if_pos hc, rfl, Sink.output_of_abandoned rfl⟩

/-- Under `ZeroFill`: the tail completed with zeros is decoded as one record more. -/
theorem expand_boot_zeroFills (es : List Byte) {tail : List Bit} (hne : tail ≠ []) (h : tail.length < 8) {s : State}
    (hp : s.phase = .idle) (hc : s.cause = .noFault) :
    ∃ t, runSteps (2 * (es.length + 3)) (s.boot .expand ⟨bitsOfBytes es ++ tail, .zeroFill⟩) = .next t ∧
      Succeeded t (pack (expand (es ++ [byteOfBits tail]))) := by
  have hrun := runSteps_boot (s := s) (feeds_tailedCommands es hne h) (execAll_expandCommands _ hp)
  rw [expandCommands_length, List.length_append, List.length_singleton] at hrun
  exact ⟨_, hrun, (Succeeded.of_bits (s := s.boot .expand ⟨bitsOfBytes es ++ tail, .zeroFill⟩) .runE _ hc rfl).hosted
    _ _⟩

/-- Settles O50: the tail's read fails and faults the block, or gives the padded record. -/
theorem tailedInvocation : Obligations.TailedInvocation := by
  intro E tail s hne h hphase hcause
  rw [← expand_eq_expandByIndex]
  refine ⟨expand_boot_faults E hne h hphase hcause, ?_⟩
  obtain ⟨t, hrun, ht⟩ := expand_boot_zeroFills E hne h hphase hcause
  rw [expand_eq_expandByIndex] at ht
  exact ⟨t, byteOfBits tail, hrun, ht, fun _ hk => getLsbD_byteOfBits h.le hk⟩

end Sys2Proof.Machine

/-! ## The words of the commands and of the output transactions (30_encoding.md R45 to R52, R58) -/

namespace Sys2Proof.Machine

/-- Every word is `{op, payload}` (R45). -/
theorem exists_eq_packFields (w : CmdWord) : ∃ (op : BitVec 2) (p : Byte), w = packFields op p :=
  ⟨opField w, payloadField w, (packFields_fields w).symm⟩

theorem op_cases (op : BitVec 2) : op = 0b00#2 ∨ op = 0b01#2 ∨ op = 0b10#2 ∨ op = 0b11#2 := by
  revert op; decide

theorem packFields_toNat_div (op : BitVec 2) (p : Byte) : (packFields op p).toNat / 256 = op.toNat := by
  rw [← opField_toNat, opField_packFields]

theorem packFields_toNat_mod (op : BitVec 2) (p : Byte) : (packFields op p).toNat % 256 = p.toNat := by
  rw [← payloadField_toNat, payloadField_packFields]

/-- The reserved bits of a START or BIT payload are all 0 where its value is at most 1 (R47, R48). -/
theorem payloadReserved_eq_zero_iff (p : Byte) : payloadReserved p = 0#7 ↔ p.toNat < 2 := by
  have hvalue : (payloadReserved p).toNat = p.toNat / 2 := by
    have := p.isLt
    rw [payloadReserved, BitVec.extractLsb'_toNat, Nat.shiftRight_eq_div_pow]
    omega
  rw [← BitVec.toNat_inj, hvalue, BitVec.toNat_ofNat]
  omega

/-- Such a payload is its bit 0 alone. -/
theorem setWidth_getLsbD_zero {p : Byte} (h : p.toNat < 2) : (BitVec.ofBool (p.getLsbD 0)).setWidth 8 = p := by
  have hp : p = 0#8 ∨ p = 1#8 := by bv_omega
  rcases hp with rfl | rfl <;> rfl

/-- The START class (R47). -/
theorem decode_start (p : Byte) : decode (packFields 0b00#2 p) =
    if p.toNat < 2 then .ok (if p.getLsbD 0 then .startE else .startC) else .error .start := by
  simp only [decode, opField_packFields, payloadField_packFields, payloadReserved_eq_zero_iff, if_true,
    apply_ite Except.ok]

/-- The BIT class (R48). -/
theorem decode_bit (p : Byte) : decode (packFields 0b01#2 p) =
    if p.toNat < 2 then .ok (.encBit (p.getLsbD 0)) else .error .bit := by
  simp [decode, payloadReserved_eq_zero_iff]

/-- The REC class, whose payload has no reserved bit (R49). -/
theorem decode_record (p : Byte) : decode (packFields 0b10#2 p) = .ok (.decRec p) := by
  simp [decode]

/-- The END class, whose payload is all reserved (R50). -/
theorem decode_end (p : Byte) : decode (packFields 0b11#2 p) =
    if p.toNat = 0 then .ok .endInput else .error .endInput := by
  simp [decode, ← BitVec.toNat_inj]

/-- A word that decodes to a command is that command's own word (R52). -/
theorem encode_of_decode {w : CmdWord} {i : Instr} (h : decode w = .ok i) : encode i = w := by
  obtain ⟨op, p, rfl⟩ := exists_eq_packFields w
  rcases op_cases op with rfl | rfl | rfl | rfl
  · rw [decode_start] at h
    split at h
    next hp =>
      cases h
      rw [← setWidth_getLsbD_zero hp]
      cases p.getLsbD 0 <;> rfl
    · cases h
  · rw [decode_bit] at h
    split at h
    next hp =>
      cases h
      rw [encode, setWidth_getLsbD_zero hp]
    · cases h
  · rw [decode_record] at h
    cases h
    rfl
  · rw [decode_end] at h
    split at h
    next hp =>
      cases h
      rw [BitVec.eq_of_toNat_eq (y := 0#8) hp, encode]
    · cases h

/-- Settles O1: the decoder reads back every command's word, and accepts no other word for it. -/
theorem decodeEncodeAgree : Obligations.DecodeEncodeAgree :=
  ⟨fun i _ => decode_encode i, fun _ _ => encode_of_decode⟩

/-- A class that checks its payload by `c` refuses the word where the check fails. -/
theorem exists_ite_eq_error {c : Prop} [Decidable c] {i : Instr} {e : Reserved} :
    (∃ r, (if c then Except.ok i else Except.error e) = Except.error r) ↔ ¬ c := by
  by_cases hc : c <;> simp [hc]

/-- Settles O3: class by class, a payload is refused where its reserved bits are not all 0. -/
theorem decodeRejectsExactlyReserved : Obligations.DecodeRejectsExactlyReserved := by
  intro w
  obtain ⟨op, p, rfl⟩ := exists_eq_packFields w
  rw [packFields_toNat_div, packFields_toNat_mod]
  rcases op_cases op with rfl | rfl | rfl | rfl
  · simp [decode_start, exists_ite_eq_error]
    omega
  · simp [decode_bit, exists_ite_eq_error]
    omega
  · simp [decode_record]
  · simp [decode_end, exists_ite_eq_error]

/-- Settles O2: the decoder is run on each of the eight words. -/
theorem decodeWrittenWords : Obligations.DecodeWrittenWords := by
  unfold Obligations.DecodeWrittenWords
  decide

theorem Txn.word_wbit (b : Bit) : (Txn.wbit b).word = packFields 0b01#2 ((BitVec.ofBool b).setWidth 8) := rfl
theorem Txn.word_wrec (n : Byte) : (Txn.wrec n).word = packFields 0b10#2 n := rfl
theorem Txn.word_close : Txn.close.word = packFields 0b11#2 0#8 := rfl

/-- The transaction that a word on the output port spells. -/
def txnOfWord (w : OutWord) : Txn :=
  if opField w = 0b01#2 then .wbit ((payloadField w).getLsbD 0)
  else if opField w = 0b10#2 then .wrec (payloadField w)
  else .close

/-- It reads back the word of every transaction, so no two of them share one. -/
theorem txnOfWord_word (t : Txn) : txnOfWord t.word = t := by
  cases t with
  | wbit b => cases b <;> rfl
  | wrec n => simp [txnOfWord, Txn.word_wrec]
  | close => rfl

theorem Txn.word_wbit_toNat (b : Bit) : (Txn.wbit b).word.toNat = 0x100 + b.toNat := by
  cases b <;> rfl

theorem Txn.word_wrec_toNat (n : Byte) : (Txn.wrec n).word.toNat = 0x200 + n.toNat := by
  rw [Txn.word_wrec, packFields_toNat]
  rfl

/-- No transaction uses the class `0b00` (R58). -/
theorem Txn.word_class_ne_zero (t : Txn) : t.word.toNat / 256 ≠ 0 := by
  cases t with
  | wbit b => rw [Txn.word_wbit, packFields_toNat_div]; decide
  | wrec n => rw [Txn.word_wrec, packFields_toNat_div]; decide
  | close => rw [Txn.word_close, packFields_toNat_div]; decide

/-- Settles O4: the words as numbers, their classes, and the reading that undoes them. -/
theorem outputWords : Obligations.OutputWords :=
  ⟨Txn.word_wbit_toNat, Txn.word_wrec_toNat, rfl, Txn.word_class_ne_zero,
    fun _ _ h => Function.LeftInverse.injective txnOfWord_word h⟩

/-! ## The step of a word (30_encoding.md R52; 60_exceptions.md R91) -/

theorem step_of_inbox_nil {s : State} (h : s.inbox = []) : step s = boundary s := by
  rw [step, h]

theorem step_of_inbox_cons {s : State} {ev : Event} {rest : List Event} (h : s.inbox = ev :: rest) :
    step s = onEvent ev { s with inbox := rest } := by
  rw [step, h]

/-- With `ERR` quiet a boundary executes the command that the word on the port spells. -/
theorem boundary_of_decode {s : State} {w : CmdWord} {i : Instr} (herr : s.err = 0#2) (hport : s.port = some w)
    (hdecode : decode w = .ok i) : boundary s = exec i s.acceptWord := by
  rw [boundary_of_word herr hport, execWord, hdecode]

/-- Settles O27: the step is that boundary, which the inbox leaves or names. -/
theorem stepRunsDecoded : Obligations.StepRunsDecoded := by
  intro s w i herr hport hdecode _
  exact ⟨fun hinbox => (step_of_inbox_nil hinbox).trans (boundary_of_decode herr hport hdecode),
    fun rest hinbox => (step_of_inbox_cons hinbox).trans
      (boundary_of_decode (s := { s with inbox := rest }) herr hport hdecode)⟩

end Sys2Proof.Machine

/-! ## What a command may emit (30_encoding.md R58; 70_reset_and_hazards.md R110) -/

namespace Sys2Proof.Machine

/-- The outputs that the command `i`, executed in the phase `p`, may make. -/
structure MayEmit (i : Instr) (p : Phase) (outs : List Txn) : Prop where
  wrec : ∀ n, .wrec n ∈ outs → p = .runC
  wbit : ∀ b, .wbit b ∈ outs → p = .runE
  close : .close ∈ outs → i = .endInput ∧ ∃ before, outs = before ++ [.close] ∧ .close ∉ before
  length : outs.length ≤ maxTransfers i

theorem mayEmit_nil (i : Instr) (p : Phase) : MayEmit i p [] := by
  constructor <;> simp

theorem mayEmit_wrecs {i : Instr} {p : Phase} (hp : p = .runC) {ns : List Byte} (h : ns.length ≤ maxTransfers i) :
    MayEmit i p (ns.map .wrec) := by
  constructor <;> simp [hp, h]

theorem mayEmit_repeatBit (n : Byte) (v : Bit) : MayEmit (.decRec n) .runE (repeatBit n v) := by
  have hn : n.toNat ≤ 255 := Nat.le_of_lt_succ n.isLt
  constructor <;> simp [repeatBit, recordLength, maxTransfers, hn]

theorem State.mem_pendingRecord {s : State} {t : Txn} (h : t ∈ s.pendingRecord) :
    s.phase = .runC ∧ t = .wrec s.runLen := by
  unfold State.pendingRecord at h
  split at h
  next hpending => exact ⟨hpending.1, List.mem_singleton.1 h⟩
  · cases h

theorem State.pendingRecord_length_le (s : State) : s.pendingRecord.length ≤ 1 := by
  unfold State.pendingRecord
  split <;> simp

/-- `END` flushes at most one record, in `RUN_C` only, and closes last (40_control.md R65). -/
theorem mayEmit_end (s : State) : MayEmit .endInput s.phase (s.pendingRecord ++ [.close]) where
  wrec n h := (State.mem_pendingRecord (t := .wrec n) (by simpa using h)).1
  wbit b h := nomatch (State.mem_pendingRecord (t := .wbit b) (by simpa using h)).2
  close _ := ⟨rfl, _, rfl, fun h => nomatch (State.mem_pendingRecord h).2⟩
  length := by simpa [maxTransfers] using s.pendingRecord_length_le

/-- The three cases of R67 emit no record, the continuation pair, or the finished run. -/
theorem encodeBit_records_length_le (b cur : Bit) (n : Byte) : (encodeBit b cur n).2.2.length ≤ 2 := by
  by_cases hb : b = cur
  · by_cases hn : n < Config.maxRun
    · simp [encodeBit_counts hb hn]
    · simp [encodeBit_continues hb hn]
  · simp [encodeBit_ends hb]

@[simp] theorem State.countBit_got (s : State) (b : Bit) :
    (s.countBit b).sink.got = s.sink.got ++ (encodeBit b s.cur s.runLen).2.2.map .wrec := rfl
@[simp] theorem State.writeRun_got (s : State) (n : Byte) :
    (s.writeRun n).sink.got = s.sink.got ++ repeatBit n s.cur := rfl
@[simp] theorem State.closeInvocation_got (s : State) :
    s.closeInvocation.sink.got = s.sink.got ++ (s.pendingRecord ++ [.close]) := rfl

/-- A command appends to the sink outputs it may make, in each case of `exec`. -/
theorem exec_emits {i : Instr} {s t : State} (h : exec i s = .next t) :
    ∃ outs, t.sink.got = s.sink.got ++ outs ∧ MayEmit i s.phase outs := by
  rcases exec_cases h with ⟨-, rfl⟩ | ⟨-, rfl⟩ | ⟨-, -, rfl⟩ | ⟨-, -, rfl⟩ | ⟨b, rfl, hp, rfl⟩ | ⟨n, rfl, hp, rfl⟩ |
    ⟨rfl, -, rfl⟩
  · exact ⟨[], by simp, mayEmit_nil i _⟩
  · exact ⟨[], by simp, mayEmit_nil i _⟩
  · exact ⟨[], by simp, mayEmit_nil i _⟩
  · exact ⟨[], by simp, mayEmit_nil i _⟩
  · exact ⟨_, rfl, mayEmit_wrecs hp (encodeBit_records_length_le b s.cur s.runLen)⟩
  · exact ⟨_, rfl, hp ▸ mayEmit_repeatBit n s.cur⟩
  · exact ⟨_, rfl, mayEmit_end s⟩

/-- Settles O24: the clauses of `MayEmit`, for the outputs of each case of `exec`. -/
theorem outputsByPhase : Obligations.OutputsByPhase := by
  intro i s t h
  obtain ⟨outs, hgot, hwrec, hwbit, hclose, hlength⟩ := exec_emits h
  exact ⟨outs, hgot, hwrec, hwbit, hclose, hlength⟩

end Sys2Proof.Machine

/-! ## The canonical form (30_encoding.md R55; 41_compress.md R74) -/

namespace Sys2Proof.Machine

/-- Clause (b) of R55 by index: each 0 record follows a 255. -/
theorem zerosContinue_iff (n : Byte) (ns : List Byte) :
    zerosContinue n ns = true ↔ ∀ i : Nat, (n :: ns)[i + 1]? = some 0#8 → (n :: ns)[i]? = some 255#8 := by
  induction ns generalizing n with
  | nil => simp [zerosContinue]
  | cons m ns ih =>
    rw [zerosContinue, Bool.and_eq_true, ih]
    constructor
    · rintro ⟨hfirst, hrest⟩ i
      cases i with
      | zero => simpa [or_iff_not_imp_left] using hfirst
      | succ i => exact hrest i
    · intro h
      exact ⟨by simpa [or_iff_not_imp_left] using h 0, fun i => h (i + 1)⟩

theorem canonical_cons_iff (n : Byte) (ns : List Byte) :
    canonical (n :: ns) = true ↔ (n :: ns).getLast? ≠ some 0#8 ∧ zerosContinue n ns = true := by
  rw [canonical, Bool.and_eq_true, decide_eq_true_iff]

theorem canonical_iff (es : List Byte) : canonical es = true ↔
    es = [] ∨ (es.getLast? ≠ some 0#8 ∧ ∀ i : Nat, es[i + 1]? = some 0#8 → es[i]? = some 255#8) := by
  cases es with
  | nil => simp [canonical]
  | cons n ns => rw [canonical_cons_iff, zerosContinue_iff]; simp

/-- The counter is not 0 once the encoder has met a bit. -/
theorem encodeBit_runLen_ne_zero (b cur : Bit) (n : Byte) : (encodeBit b cur n).2.1 ≠ 0#8 := by
  intro h
  have := one_le_encodeBit_runLen b cur n
  rw [h] at this
  exact absurd this (by decide)

/-- Where a bit is counted the encoder's last record is the flush of R70, which is not 0. -/
theorem exists_getLast?_compressFrom {bs : List Bit} (cur : Bit) {n : Byte} (h : n ≠ 0#8 ∨ bs ≠ []) :
    ∃ m, m ≠ 0#8 ∧ (compressFrom cur n bs).getLast? = some m := by
  induction bs generalizing cur n with
  | nil =>
    have hn : n ≠ 0#8 := h.resolve_right (not_not.2 rfl)
    exact ⟨n, hn, by simp [compressFrom, hn]⟩
  | cons b bs ih =>
    obtain ⟨m, hm, hlast⟩ := ih (encodeBit b cur n).1 (.inl (encodeBit_runLen_ne_zero b cur n))
    exact ⟨m, hm, by rw [compressFrom_cons, List.getLast?_append, hlast, Option.some_or]⟩

/-- The encoder emits a 0 record only for a run of no bits, or behind the 255 of a continuation pair. -/
theorem zerosContinue_compressFrom (bs : List Bit) (cur : Bit) {n previous : Byte}
    (h : n ≠ 0#8 ∨ previous = 255#8) : zerosContinue previous (compressFrom cur n bs) = true := by
  induction bs generalizing cur n previous with
  | nil => by_cases hn : n = 0#8 <;> simp [compressFrom, hn, zerosContinue]
  | cons b bs ih =>
    have hrest (p : Byte) := ih (encodeBit b cur n).1 (previous := p) (.inl (encodeBit_runLen_ne_zero b cur n))
    rw [compressFrom_cons]
    by_cases hb : b = cur
    · by_cases hfull : n < Config.maxRun
      · rw [encodeBit_counts hb hfull] at hrest ⊢
        exact hrest previous
      · rw [encodeBit_continues hb hfull] at hrest ⊢
        simp [zerosContinue, hrest, Config.maxRun]
    · rw [encodeBit_ends hb] at hrest ⊢
      simpa [zerosContinue, hrest] using h

/-- A first record 0 is canonical, as one behind a 255 is. -/
theorem canonical_of_zerosContinue {es : List Byte} (hlast : es.getLast? ≠ some 0#8)
    (hzeros : zerosContinue 255#8 es = true) : canonical es = true := by
  cases es with
  | nil => rfl
  | cons n ns => exact (canonical_cons_iff n ns).2 ⟨hlast, by simpa [zerosContinue] using hzeros⟩

/-- 41_compress.md R74 (d). -/
theorem canonical_compress (bs : List Bit) : canonical (compress bs) = true := by
  by_cases hbs : bs = []
  · subst hbs; rfl
  · obtain ⟨m, hm, hlast⟩ := exists_getLast?_compressFrom false (n := 0#8) (.inr hbs)
    refine canonical_of_zerosContinue ?_ (zerosContinue_compressFrom bs false (.inr rfl))
    rw [compress, hlast]
    simpa using hm

/-- Settles O47: R55 by index, and the two clauses of it for the encoder's records. -/
theorem canonicalForm : Obligations.CanonicalForm := ⟨canonical_iff, canonical_compress⟩

end Sys2Proof.Machine

/-! ## Assembled lines (30_encoding.md R59, R60) -/

namespace Sys2Proof.Machine

theorem assembleLine_of_wf {l : Line} (h : l.wf = true) : assembleLine l = .ok ((expansionOf l).map encode) :=
  if_pos h

theorem assembleLine_of_not_wf {l : Line} (h : l.wf = false) : assembleLine l = .error .outOfRange := by
  simp [assembleLine, h]

/-- The words of a line are those of its commands. -/
theorem eq_map_encode_of_assembleLine {l : Line} {ws : List CmdWord} (h : assembleLine l = .ok ws) :
    ws = (expansionOf l).map encode := by
  unfold assembleLine at h
  split at h
  · cases h; rfl
  · cases h

/-- The words of a line of text are those of commands. -/
theorem exists_map_encode_of_assembleText {cs : List Char} {ws : List CmdWord} (h : assembleText cs = .ok ws) :
    ∃ is : List Instr, ws = is.map encode := by
  unfold assembleText at h
  split at h
  · cases h
  · cases h
    exact ⟨[], rfl⟩
  · exact ⟨_, eq_map_encode_of_assembleLine h⟩

/-- Settles O5: decoding inverts encoding. -/
theorem assemblerNeverIllegal : Obligations.AssemblerNeverIllegal := by
  intro text words h w hw
  obtain ⟨is, rfl⟩ := exists_map_encode_of_assembleText h
  obtain ⟨i, -, rfl⟩ := List.mem_map.1 hw
  exact ⟨i, decode_encode i⟩

/-! ### The expansions -/

theorem encode_encBit (b : Bit) : encode (.encBit b) = 0x100#10 ||| BitVec.ofNat 10 b.toNat := by
  cases b <;> rfl

/-- The word of `bit B`. -/
theorem encode_encBit_beq_one {b : Nat} (h : b ≤ 1) :
    encode (.encBit (b == 1)) = 0x100#10 ||| BitVec.ofNat 10 b := by
  have hb : (b == 1).toNat = b := by interval_cases b <;> rfl
  rw [encode_encBit, hb]

theorem encode_decRec (n : Byte) : encode (.decRec n) = 0x200#10 ||| n.setWidth 10 := rfl

/-- The word of `rec N`. -/
theorem encode_decRec_ofNat {n : Nat} (h : n ≤ 255) :
    encode (.decRec (BitVec.ofNat 8 n)) = 0x200#10 ||| BitVec.ofNat 10 n := by
  have hn : n < 2 ^ 8 := by omega
  rw [encode_decRec, BitVec.setWidth_ofNat_of_le_of_lt (by decide) hn]

theorem toNat_getLsbD_ofNat (x : Nat) {k : Nat} (hk : k < 8) :
    ((BitVec.ofNat 8 x).getLsbD k).toNat = x / 2 ^ k % 2 := by
  rw [BitVec.getLsbD_ofNat, decide_eq_true hk, Bool.true_and, Nat.toNat_testBit]

/-- The bits of `byte X` as numbers, most significant first. -/
theorem map_toNat_bitsOfByte_ofNat (x : Nat) :
    (bitsOfByte (BitVec.ofNat 8 x)).map Bool.toNat =
      ([7, 6, 5, 4, 3, 2, 1, 0] : List Nat).map (fun k => x / 2 ^ k % 2) := by
  have hbits : bitsOfByte (BitVec.ofNat 8 x) = [7, 6, 5, 4, 3, 2, 1, 0].map (BitVec.ofNat 8 x).getLsbD := rfl
  rw [hbits, List.map_map]
  exact List.map_congr_left fun k hk => toNat_getLsbD_ofNat x (by revert k; decide)

theorem map_encode_encBit (bs : List Bit) :
    (bs.map Instr.encBit).map encode = (bs.map Bool.toNat).map (fun k => 0x100#10 ||| BitVec.ofNat 10 k) := by
  simp only [List.map_map, Function.comp_def, encode_encBit]

theorem map_encode_decRec {ns : List Nat} (h : ∀ n ∈ ns, n ≤ 255) :
    (ns.map (fun n => Instr.decRec (BitVec.ofNat 8 n))).map encode =
      ns.map (fun n => 0x200#10 ||| BitVec.ofNat 10 n) := by
  rw [List.map_map]
  exact List.map_congr_left fun n hn => encode_decRec_ofNat (h n hn)

theorem Line.wf_recs_iff {ns : List Nat} : (Line.recs ns).wf = true ↔ ∀ n ∈ ns, n ≤ 255 := by
  simp [Line.wf]

theorem Line.wf_recs_eq_false_iff {ns : List Nat} : (Line.recs ns).wf = false ↔ ∃ n ∈ ns, 255 < n := by
  simp [Line.wf]

theorem assembleLine_recs {ns : List Nat} (h : ∀ n ∈ ns, n ≤ 255) :
    assembleLine (.recs ns) = .ok (ns.map (fun n => 0x200#10 ||| BitVec.ofNat 10 n)) := by
  rw [assembleLine_of_wf (Line.wf_recs_iff.2 h), expansionOf, map_encode_decRec h]

/-- R60: `erecs` is another spelling of `recs`. -/
theorem assembleLine_erecs (ns : List Nat) : assembleLine (.erecs ns) = assembleLine (.recs ns) := rfl

/-- Settles O7: the range check of each line, and the words of the commands its operands in range stand for. -/
theorem assemblyExpansions : Obligations.AssemblyExpansions := by
  refine ⟨rfl, rfl, rfl, ?_, ?_, ?_, ?_, ?_, ?_, ?_, ?_⟩
  · intro b hb
    rw [assembleLine_of_wf (by simpa [Line.wf] using hb), ← encode_encBit_beq_one hb]
    rfl
  · intro n hn
    rw [assembleLine_of_wf (by simpa [Line.wf] using hn), ← encode_decRec_ofNat hn]
    rfl
  · intro b k hb
    rw [assembleLine_of_wf (by simpa [Line.wf] using hb), ← encode_encBit_beq_one hb, expansionOf, List.map_replicate]
  · intro x hx
    rw [assembleLine_of_wf (by simpa [Line.wf] using hx), expansionOf, map_encode_encBit, map_toNat_bitsOfByte_ofNat]
    rfl
  · exact fun ns h => ⟨assembleLine_recs h, assembleLine_erecs ns⟩
  · intro b k hb
    exact ⟨assembleLine_of_not_wf (by simpa [Line.wf] using hb), assembleLine_of_not_wf (by simpa [Line.wf] using hb)⟩
  · intro n hn
    exact ⟨assembleLine_of_not_wf (by simpa [Line.wf] using hn), assembleLine_of_not_wf (by simpa [Line.wf] using hn)⟩
  · intro ns h
    have hrecs := assembleLine_of_not_wf (Line.wf_recs_eq_false_iff.2 h)
    exact ⟨hrecs, (assembleLine_erecs ns).trans hrecs⟩

end Sys2Proof.Machine

/-! ## The assembly text of a command (30_encoding.md R59) -/

namespace Sys2Proof.Machine

/-- A character that separates nothing: no blank, no comma and no semicolon. -/
def plainChar (c : Char) : Bool := !isBlank c && c != ',' && c != ';'

/-- A word of a line: not empty, and plain characters only. -/
structure PlainWord (cs : List Char) : Prop where
  ne_nil : cs ≠ []
  plain : ∀ c ∈ cs, plainChar c = true

theorem plainChar_iff {c : Char} : plainChar c = true ↔ isBlank c = false ∧ c ≠ ',' ∧ c ≠ ';' := by
  simp [plainChar, and_assoc]

/-! ### Numbers in decimal -/

theorem digitValue_of_isDigit {c : Char} (h : c.isDigit = true) : digitValue 10 c = some (c.toNat - '0'.toNat) := by
  rw [Char.isDigit_iff_toNat] at h
  have hlt : c.toNat - '0'.toNat < 10 := by
    have : c.toNat ≤ 57 := h.2
    have : '0'.toNat = 48 := rfl
    omega
  simp only [digitValue, if_pos h, if_pos hlt]

theorem plainChar_of_isDigit {c : Char} (h : c.isDigit = true) : plainChar c = true := by
  have hne {d : Char} (hd : d.isDigit = false) : c ≠ d := by
    rintro rfl
    exact absurd h (by simp [hd])
  rw [plainChar_iff]
  exact ⟨by simp [isBlank, hne (d := ' ') rfl, hne (d := '\t') rfl], hne rfl, hne rfl⟩

theorem digitsValue_of_isDigit {cs : List Char} (h : ∀ c ∈ cs, c.isDigit = true) (v : Nat) :
    digitsValue 10 v cs = some (Nat.ofDigitChars 10 cs v) := by
  induction cs generalizing v with
  | nil => rfl
  | cons c cs ih =>
    rw [List.forall_mem_cons] at h
    obtain ⟨hc, hcs⟩ := h
    simp only [digitsValue, digitValue_of_isDigit hc, ih hcs, Nat.ofDigitChars_cons]

/-- Digits alone are no hex number, whose second character is an `x`. -/
theorem parseNumber_of_isDigit {cs : List Char} (hne : cs ≠ []) (h : ∀ c ∈ cs, c.isDigit = true) :
    parseNumber cs = some (Nat.ofDigitChars 10 cs 0) := by
  unfold parseNumber
  split
  · exact absurd rfl hne
  · exact absurd (h 'x' (by simp)) (by decide)
  · exact digitsValue_of_isDigit h 0

theorem isDigit_of_mem_decimal {n : Nat} {c : Char} (h : c ∈ decimal n) : c.isDigit = true :=
  Nat.isDigit_of_mem_toDigits (by decide) (by decide) h

theorem plainWord_decimal (n : Nat) : PlainWord (decimal n) :=
  ⟨Nat.toDigits_ne_nil, fun _ hc => plainChar_of_isDigit (isDigit_of_mem_decimal hc)⟩

/-- Reading a decimal number gives the number written. -/
theorem parseNumber_decimal (n : Nat) : parseNumber (decimal n) = some n := by
  have hvalue : Nat.ofDigitChars 10 (decimal n) 0 = n := Nat.ofDigitChars_ten_toDigits
  rw [parseNumber_of_isDigit (plainWord_decimal n).ne_nil (fun _ => isDigit_of_mem_decimal), hvalue]

/-! ### Blanks, commas and comments -/

theorem trimBlanks_blank_cons (cs : List Char) : trimBlanks (' ' :: cs) = trimBlanks cs := rfl

theorem trimBlanks_append_blank (cs : List Char) : trimBlanks (cs ++ [' ']) = trimBlanks cs := by
  have hblank : [' '].dropWhile isBlank = [] := rfl
  unfold trimBlanks
  rw [List.dropWhile_append]
  split
  next hempty => rw [hblank, List.isEmpty_iff.1 hempty]
  · rw [List.reverse_append]
    rfl

/-- Plain characters at both ends leave nothing to trim. -/
theorem trimBlanks_eq_self {cs : List Char} (hfirst : ∀ c ∈ cs.head?, plainChar c = true)
    (hlast : ∀ c ∈ cs.getLast?, plainChar c = true) : trimBlanks cs = cs := by
  have hself {ds : List Char} (h : ∀ c ∈ ds.head?, plainChar c = true) : ds.dropWhile isBlank = ds := by
    cases ds with
    | nil => rfl
    | cons d ds => exact List.dropWhile_cons_of_neg (by simp [(plainChar_iff.1 (h d rfl)).1])
  rw [trimBlanks, hself hfirst, hself (by rwa [List.head?_reverse]), List.reverse_reverse]

theorem PlainWord.trimBlanks_append {m d : List Char} (hm : PlainWord m) (hd : PlainWord d) (cs : List Char) :
    trimBlanks (m ++ (cs ++ d)) = m ++ (cs ++ d) := by
  have hne : cs ++ d ≠ [] := List.append_ne_nil_of_right_ne_nil cs hd.ne_nil
  apply trimBlanks_eq_self
  · rw [List.head?_append_of_ne_nil m hm.ne_nil]
    exact fun c hc => hm.plain c (List.mem_of_mem_head? hc)
  · rw [List.getLast?_append_of_ne_nil m hne, List.getLast?_append_of_ne_nil cs hd.ne_nil]
    exact fun c hc => hd.plain c (List.mem_of_getLast? hc)

theorem PlainWord.trimBlanks_eq {d : List Char} (hd : PlainWord d) : trimBlanks d = d :=
  trimBlanks_eq_self (fun c hc => hd.plain c (List.mem_of_mem_head? hc))
    (fun c hc => hd.plain c (List.mem_of_getLast? hc))

theorem PlainWord.splitCommas_eq {d : List Char} (hd : PlainWord d) : splitCommas d = [d] := by
  have h := hd.plain
  clear hd
  induction d with
  | nil => rfl
  | cons c cs ih =>
    rw [List.forall_mem_cons, plainChar_iff] at h
    obtain ⟨⟨-, hcomma, -⟩, hcs⟩ := h
    simp [splitCommas, ih hcs, hcomma]

theorem stripComment_eq_self {cs : List Char} (h : ';' ∉ cs) : stripComment cs = cs :=
  List.takeWhile_eq_self_iff.2 fun _ hc => bne_iff_ne.2 (ne_of_mem_of_not_mem hc h)

/-- What stands behind a semicolon does not matter. -/
theorem stripComment_append {cs : List Char} (h : ';' ∉ cs) (comment : List Char) :
    stripComment (cs ++ ';' :: comment) = cs := by
  have hcomment : (';' :: comment).takeWhile (· != ';') = [] := rfl
  rw [stripComment, List.takeWhile_append_of_pos fun _ hc => bne_iff_ne.2 (ne_of_mem_of_not_mem hc h), hcomment,
    List.append_nil]

/-- A comment behind a line of text changes nothing. -/
theorem assembleText_comment {cs : List Char} (h : ';' ∉ cs) (comment : List Char) :
    assembleText (cs ++ ' ' :: ';' :: comment) = assembleText cs := by
  have hsplit : cs ++ ' ' :: ';' :: comment = (cs ++ [' ']) ++ ';' :: comment := by simp
  have hbody : trimBlanks (stripComment (cs ++ ' ' :: ';' :: comment)) = trimBlanks (stripComment cs) := by
    rw [hsplit, stripComment_append (by simp [h]), stripComment_eq_self h, trimBlanks_append_blank]
  unfold assembleText parseLine
  rw [hbody]

/-! ### A mnemonic with one operand -/

theorem PlainWord.not_semicolon_mem {d : List Char} (hd : PlainWord d) : ';' ∉ d :=
  fun h => absurd (hd.plain _ h) (by decide)

theorem PlainWord.mnemonic {m : List Char} (hm : PlainWord m) (cs : List Char) :
    (m ++ ' ' :: cs).takeWhile (fun c => !isBlank c) = m ∧
      (m ++ ' ' :: cs).dropWhile (fun c => !isBlank c) = ' ' :: cs := by
  have h (c) (hc : c ∈ m) : (!isBlank c) = true := by simp [(plainChar_iff.1 (hm.plain c hc)).1]
  rw [List.takeWhile_append_of_pos h, List.dropWhile_append_of_pos h]
  exact ⟨List.append_nil m, rfl⟩

/-- Blanks and the end of the line set off the two words, and the second is read as a number. -/
theorem parseLine_operand {m : List Char} (hm : PlainWord m) (n : Nat) {l : Line} (hl : lineOf m [n] = .ok l) :
    parseLine (m ++ ' ' :: decimal n) = .ok (some l) := by
  have hd := plainWord_decimal n
  have hstrip : stripComment (m ++ ' ' :: decimal n) = m ++ ' ' :: decimal n :=
    stripComment_eq_self (by simp [hm.not_semicolon_mem, hd.not_semicolon_mem])
  have htrim : trimBlanks (m ++ ' ' :: decimal n) = m ++ ' ' :: decimal n := hm.trimBlanks_append hd [' ']
  obtain ⟨hmnemonic, hrest⟩ := hm.mnemonic (decimal n)
  have hnumbers : parseNumbers [decimal n] = some [n] := by
    simp only [parseNumbers, hd.trimBlanks_eq, parseNumber_decimal]
  simp only [parseLine, hstrip, htrim, hmnemonic, hrest, trimBlanks_blank_cons, hd.trimBlanks_eq, hd.ne_nil, hm.ne_nil,
    hd.splitCommas_eq, hnumbers, hl, if_false]

theorem assembleText_operand {m : List Char} (hm : PlainWord m) (n : Nat) {l : Line} (hl : lineOf m [n] = .ok l) :
    assembleText (m ++ ' ' :: decimal n) = assembleLine l := by
  rw [assembleText, parseLine_operand hm n hl]

theorem plainWord_bit : PlainWord ['b', 'i', 't'] := ⟨by decide, by simp [plainChar, isBlank]⟩
theorem plainWord_rec : PlainWord ['r', 'e', 'c'] := ⟨by decide, by simp [plainChar, isBlank]⟩

theorem assembleLine_bit (b : Bit) : assembleLine (.bit b.toNat) = .ok [encode (.encBit b)] := by
  cases b <;> rfl

theorem assembleLine_record (n : Byte) : assembleLine (.record n.toNat) = .ok [encode (.decRec n)] := by
  have hn : (Line.record n.toNat).wf = true := Instr.wf_all (.decRec n)
  rw [assembleLine_of_wf hn, expansionOf, BitVec.ofNat_toNat, BitVec.setWidth_eq]
  rfl

/-- The text of each command gives its word (R59). -/
theorem assembleText_asmOf (i : Instr) : assembleText (asmOf i) = .ok [encode i] := by
  cases i with
  | startC => rfl
  | startE => rfl
  | encBit b => exact (assembleText_operand plainWord_bit b.toNat rfl).trans (assembleLine_bit b)
  | decRec n => exact (assembleText_operand plainWord_rec n.toNat rfl).trans (assembleLine_record n)
  | endInput => rfl

theorem semicolon_not_mem_asmOf (i : Instr) : ';' ∉ asmOf i := by
  cases i with
  | startC => decide
  | startE => decide
  | encBit b => simp [asmOf, (plainWord_decimal b.toNat).not_semicolon_mem]
  | decRec n => simp [asmOf, (plainWord_decimal n.toNat).not_semicolon_mem]
  | endInput => decide

/-- Settles O6: each text gives its word, and holds no semicolon, so of a line only the comment behind it is cut off. -/
theorem assemblyTextOfCommand : Obligations.AssemblyTextOfCommand := by
  intro i comment
  exact ⟨assembleText_asmOf i,
    (assembleText_comment (semicolon_not_mem_asmOf i) comment).trans (assembleText_asmOf i)⟩

end Sys2Proof.Machine

/-! ## The control commands (40_control.md R63 to R65) -/

namespace Sys2Proof.Machine

theorem State.pendingRecord_of_runLen_ne_zero {s : State} (h : s.phase = .runC) (hn : s.runLen ≠ 0#8) :
    s.pendingRecord = [.wrec s.runLen] :=
  if_pos ⟨h, hn⟩

theorem State.pendingRecord_of_runLen_eq_zero {s : State} (hn : s.runLen = 0#8) : s.pendingRecord = [] :=
  if_neg fun h => h.2 hn

/-- Settles O15: in `IDLE` both commands are legal, and their effect is `State.openInvocation`. -/
theorem startOpensInvocation : Obligations.StartOpensInvocation := by
  intro s h
  exact ⟨exec_startC_of_idle h, exec_startE_of_idle h⟩

/-- Settles O19: `END` emits the pending record and `CLOSE`, and the phase and `runLen` say whether one is pending.
In a `RUN_C` state with `runLen` 0 the write of 0 to `runLen` changes nothing. -/
theorem endClosesInvocation : Obligations.EndClosesInvocation := by
  intro s
  refine ⟨fun h hn => ?pending, fun h hn => ?flushed, fun h => ?expanding⟩
  case pending =>
    rw [exec_endInput_of_open (.inl h), State.closeInvocation_eq, State.pendingRecord_of_runLen_ne_zero h hn]
    rfl
  case flushed =>
    rw [exec_endInput_of_open (.inl h), State.closeInvocation_eq, State.pendingRecord_of_runLen_eq_zero hn,
      State.closedWith, ← hn]
    rfl
  case expanding =>
    rw [exec_endInput_of_open (.inr h), State.closeInvocation_eq, State.pendingRecord_of_runE h]
    rfl

end Sys2Proof.Machine

/-! ## The encoder on the machine (41_compress.md R67 to R75) -/

namespace Sys2Proof.Machine

/-- On a fresh sink the records written are the result of the closed invocation. Its sink does not depend on the recorded
cause. -/
theorem output_of_records {s : State} (p : Phase) (es : List Byte) (hk : s.sink = Sink.fresh) :
    ((s.openInvocation p).closedWith (es.map .wrec)).sink.output = some es :=
  (Succeeded.of_records (s := { s with cause := .noFault }) p es rfl hk).result

/-- Settles O41: the commands emit the records of the encoder's fold, which are those of the runs of its input. -/
theorem compressByRuns_onMachine : Obligations.CompressByRuns := by
  intro S s h
  have hrun := execAll_compressCommands S h
  rw [compress_eq_compressByRuns] at hrun
  refine ⟨_, hrun, rfl, rfl, ?got, output_of_records .runC _, compress_eq_compressByRuns S, pack_bitsOfBytes _⟩
  case got => simp

/-- Settles O39: the empty input has no run, so `CLOSE` comes alone. -/
theorem emptyInput : Obligations.EmptyInput := fun _ h =>
  ⟨_, execAll_compressCommands [] h, rfl, rfl, output_of_records .runC []⟩

/-! ### One bit -/

theorem State.countBit_counts {s : State} {b : Bit} (hb : b = s.cur) (hn : s.runLen < Config.maxRun) :
    s.countBit b = { s with runLen := s.runLen + 1#8 } := by
  rw [State.countBit, encodeBit_counts hb hn]
  simp [State.emit, Sink.accept]

theorem State.countBit_continues {s : State} {b : Bit} (hb : b = s.cur) (hn : ¬ s.runLen < Config.maxRun) :
    s.countBit b = { s with runLen := 1#8, sink := s.sink.accept [.wrec 255#8, .wrec 0#8] } := by
  rw [State.countBit, encodeBit_continues hb hn]
  rfl

theorem State.countBit_ends {s : State} {b : Bit} (hb : b ≠ s.cur) :
    s.countBit b = { s with cur := b, runLen := 1#8, sink := s.sink.accept [.wrec s.runLen] } := by
  rw [State.countBit, encodeBit_ends hb]
  rfl

/-- Settles O16: in `RUN_C` the command is legal, and its effect is `State.countBit`. -/
theorem encBitThreeCases : Obligations.EncBitThreeCases := by
  intro b s h
  rw [exec_encBit_of_runC b h]
  refine ⟨fun hb hn => ?counts, fun hb hn => ?continues, fun hb => ?ends⟩
  case counts => rw [State.countBit_counts hb hn]
  case continues =>
    have hfull : ¬ s.runLen.toNat < 255 := by omega
    rw [State.countBit_continues hb hfull]
    rfl
  case ends =>
    rw [State.countBit_ends hb]
    rfl

/-- Settles O17: the counter counts only below 255, and is set to 1 in the two other cases. -/
theorem counterNeverWraps : Obligations.CounterNeverWraps := by
  intro b s t h hexec
  rw [exec_encBit_of_runC b h] at hexec
  cases hexec
  have hwidth := Nat.le_of_lt_succ (s.countBit b).runLen.isLt
  by_cases hb : b = s.cur
  · by_cases hn : s.runLen < Config.maxRun
    · rw [State.countBit_counts hb hn] at hwidth ⊢
      exact ⟨.inl (toNat_add_one_of_lt_maxRun hn), hwidth, [], by simp⟩
    · rw [State.countBit_continues hb hn] at hwidth ⊢
      exact ⟨.inr rfl, hwidth, [255#8, 0#8], by simp⟩
  · rw [State.countBit_ends hb] at hwidth ⊢
    exact ⟨.inr rfl, hwidth, [s.runLen], by simp⟩

/-! ### The bits of an input -/

/-- The block after the bits `bs` of a compress invocation. -/
def State.countBits (s : State) (bs : List Bit) : State := bs.foldl State.countBit s

theorem State.countBits_cons (s : State) (b : Bit) (bs : List Bit) :
    s.countBits (b :: bs) = (s.countBit b).countBits bs := rfl

theorem State.countBits_concat (s : State) (bs : List Bit) (b : Bit) :
    s.countBits (bs ++ [b]) = (s.countBits bs).countBit b := List.foldl_concat ..

@[simp] theorem State.countBits_phase (s : State) (bs : List Bit) : (s.countBits bs).phase = s.phase := by
  induction bs generalizing s with
  | nil => rfl
  | cons b bs ih => rw [State.countBits_cons, ih, State.countBit_phase]

theorem execAll_encBits (bs : List Bit) {s : State} (h : s.phase = .runC) :
    execAll (bs.map .encBit) s = .next (s.countBits bs) := by
  induction bs generalizing s with
  | nil => rfl
  | cons b bs ih =>
    rw [List.map_cons, execAll_cons (exec_encBit_of_runC b h), ih (by simpa using h), State.countBits_cons]

/-- Once a bit is counted `runLen` is not 0 again (10_state.md R21 (b)). -/
theorem State.countBits_runLen_eq_zero_iff (s : State) (bs : List Bit) :
    (s.countBits bs).runLen = 0#8 ↔ s.runLen = 0#8 ∧ bs = [] := by
  induction bs generalizing s with
  | nil => simp [State.countBits]
  | cons b bs ih => simp [State.countBits_cons, ih, encodeBit_runLen_ne_zero]

/-- Settles O38: `START_C` clears `runLen` and every bit leaves it above 0; `END` then flushes it as one record. -/
theorem flushIsOneRecordOrNone : Obligations.FlushIsOneRecordOrNone := by
  constructor
  · intro S s h
    refine ⟨(s.openInvocation .runC).countBits S, ?_, by simp, by simp [State.countBits_runLen_eq_zero_iff], ?_⟩
    · rw [execAll_cons (exec_startC_of_idle h), execAll_encBits S rfl]
    · rintro rfl
      rfl
  · intro s h
    refine ⟨_, exec_endInput_of_open (.inl h), ?_⟩
    by_cases hn : s.runLen = 0#8
    · simp [State.pendingRecord_of_runLen_eq_zero hn, hn]
    · have hpos : 0 < s.runLen.toNat := Nat.pos_of_ne_zero fun h0 => hn (BitVec.eq_of_toNat_eq h0)
      simp [State.pendingRecord_of_runLen_ne_zero h hn, hpos]

/-! ### A long run -/

/-- The block `t` has counted `L` more bits of a run that `s` had counted one bit of (41_compress.md R69). -/
structure RunCounted (s t : State) (L : Nat) : Prop where
  cur : t.cur = s.cur
  runLen : t.runLen.toNat = L % 255 + 1
  got : t.sink.got = s.sink.got ++ (List.replicate (L / 255) [Txn.wrec 255#8, Txn.wrec 0#8]).flatten

/-- One bit more counts, or fills another 255 and restarts the counter. -/
theorem RunCounted.countBit {s t : State} {L : Nat} (h : RunCounted s t L) :
    RunCounted s (t.countBit s.cur) (L + 1) := by
  obtain ⟨hcur, hrunLen, hgot⟩ := h
  by_cases hn : t.runLen < Config.maxRun
  · have hlt : t.runLen.toNat < 255 := hn
    have hdiv : (L + 1) / 255 = L / 255 := by omega
    rw [State.countBit_counts hcur.symm hn]
    refine ⟨hcur, ?_, by rw [hdiv]; exact hgot⟩
    rw [toNat_add_one_of_lt_maxRun hn, hrunLen]
    omega
  · have hge : ¬ t.runLen.toNat < 255 := hn
    have hdiv : (L + 1) / 255 = L / 255 + 1 := by omega
    have hmod : (L + 1) % 255 = 0 := by omega
    rw [State.countBit_continues hcur.symm hn]
    refine ⟨hcur, by rw [hmod]; rfl, ?_⟩
    simp [hgot, hdiv, List.replicate_succ']

theorem runCounted_countBits {s : State} (h : s.runLen = 1#8) (L : Nat) :
    RunCounted s (s.countBits (List.replicate L s.cur)) L := by
  induction L with
  | zero => exact ⟨rfl, congrArg BitVec.toNat h, (List.append_nil _).symm⟩
  | succ L ih =>
    rw [List.replicate_succ', State.countBits_concat]
    exact ih.countBit

/-- Settles O40: by induction on the number of bits, the counter is full at each 255th of them. -/
theorem continuationFires : Obligations.ContinuationFires := by
  intro s L h hone
  obtain ⟨hcur, hrunLen, hgot⟩ := runCounted_countBits hone L
  have hrun := execAll_encBits (List.replicate L s.cur) h
  rw [List.map_replicate] at hrun
  exact ⟨_, hrun, by simpa using h, hcur, hrunLen, hgot⟩

/-! ### The encoding of one run -/

/-- A run fits the counter, or is a full counter and more (41_compress.md R73). -/
theorem runLength_induction {P : Nat → Prop} (fits : ∀ n : Byte, P n.toNat)
    (continued : ∀ l, l ≠ 0 → P l → P (255 + l)) (L : Nat) : P L := by
  induction L using Nat.strong_induction_on with
  | _ L ih =>
    by_cases hL : L < 256
    · have hvalue : (BitVec.ofNat 8 L).toNat = L := Nat.mod_eq_of_lt hL
      exact hvalue ▸ fits _
    · have hsplit : 255 + (L - 255) = L := by omega
      exact hsplit ▸ continued (L - 255) (by omega) (ih _ (by omega))

theorem encodeRun_sum (L : Nat) : ((encodeRun L).map BitVec.toNat).sum = L := by
  induction L using runLength_induction with
  | fits n => simp [encodeRun_toNat]
  | continued l hl ih => simp [encodeRun_add_maxRun hl, ih]

theorem encodeRun_length (L : Nat) : (encodeRun L).length = 2 * ((L - 1) / 255) + 1 := by
  simp [encodeRun, Nat.mul_comm]

/-- The last record is the rest of the run after its full counters, from 1 to 255. -/
theorem exists_getLast?_encodeRun {L : Nat} (h : 1 ≤ L) : ∃ n, (encodeRun L).getLast? = some n ∧ n ≠ 0#8 := by
  refine ⟨_, List.getLast?_concat, ?_⟩
  rw [ne_eq, ← BitVec.toNat_inj, BitVec.toNat_ofNat, BitVec.toNat_ofNat]
  omega

/-- Settles O42: sum, length and last record for every run, and the checked values by evaluation. -/
theorem runEncoding : Obligations.RunEncoding := by
  refine ⟨encodeRun_sum, fun L hL => ?_, by decide, by decide, by decide, by decide, by decide, by decide⟩
  obtain ⟨n, hlast, hn⟩ := exists_getLast?_encodeRun hL
  exact ⟨n, hlast, hn, encodeRun_length L⟩

end Sys2Proof.Machine

/-! ## The decoder on the machine (42_expand.md R76 to R80) -/

namespace Sys2Proof.Machine

/-- Settles O18: in `RUN_E` the command is legal, and its effect is `State.writeRun`. -/
theorem decRecWritesRun : Obligations.DecRecWritesRun := fun n _ h => exec_decRec_of_runE n h

/-- Record 0 stands for 0, and each record flips the value (30_encoding.md R54). -/
theorem iterate_not_false (k : Nat) : not^[k] false = alternation k := by
  induction k with
  | zero => rfl
  | succ k ih => rw [Function.iterate_succ_apply', ih, alternation_succ]

theorem alternation_toNat (k : Nat) : (alternation k).toNat = k % 2 := by
  unfold alternation
  rcases Nat.mod_two_eq_zero_or_one k with h | h <;> rw [h] <;> rfl

/-- The transactions that write the bits of the decoder, record by record (42_expand.md R77). -/
theorem map_wbit_expandByIndex (es : List Byte) : (expandByIndex es).map .wbit =
    (es.zipIdx.map (fun (n, k) => List.replicate n.toNat (Txn.wbit (k % 2 == 1)))).flatten := by
  simp [expandByIndex, alternation, List.map_flatten, Function.comp_def]

/-- Settles O43: `START_E` clears `cur`, each record flips it, and a record's bits have the value of its index. -/
theorem alternation_onMachine : Obligations.Alternation := by
  intro E s h
  refine ⟨_, execAll_startE_decRecs E h, rfl, rfl, ?cur, ?got⟩
  case cur => exact (congrArg Bool.toNat (iterate_not_false E.length)).trans (alternation_toNat _)
  case got =>
    rw [← map_wbit_expandByIndex, ← expand_eq_expandByIndex]
    rfl

/-- Settles O45: each of the `q` pairs writes 255 bits and flips the value twice. -/
theorem continuationAbsorbed : Obligations.ContinuationAbsorbed := by
  intro v q r rest
  induction q with
  | zero => simp [expandFrom]
  | succ q ih =>
    have hbits : 255 * (q + 1) + r.toNat = 255 + (255 * q + r.toNat) := by omega
    rw [List.replicate_succ, List.flatten_cons, List.append_assoc, List.cons_append, List.singleton_append,
      expandFrom_continuation, ih, hbits, List.replicate_add 255, List.append_assoc]
    rfl

/-- The decoder writes as many bits as its records sum to (42_expand.md R79). -/
theorem expandFrom_length (cur : Bit) (es : List Byte) :
    (expandFrom cur es).length = (es.map BitVec.toNat).sum := by
  induction es generalizing cur with
  | nil => rfl
  | cons n es ih => rw [expandFrom, List.length_append, List.length_replicate, ih, List.map_cons, List.sum_cons]

/-- On a fresh sink the packed bits written are the result of the closed invocation. Its sink does not depend on the
recorded cause. -/
theorem output_of_bits {s : State} (p : Phase) (bs : List Bit) (hk : s.sink = Sink.fresh) :
    ((s.openInvocation p).closedWith (bs.map .wbit)).sink.output = some (pack bs) :=
  (Succeeded.of_bits (s := { s with cause := .noFault }) p bs rfl hk).result

/-- Settles O44: the commands emit the bits of the decoder's recursion, which has its closed form by index. -/
theorem expandByIndex_onMachine : Obligations.ExpandByIndex := by
  intro E s h
  have hrun := execAll_expandCommands E h
  rw [expand_eq_expandByIndex] at hrun
  refine ⟨_, hrun, rfl, rfl, ?got, output_of_bits .runE _, expand_eq_expandByIndex E, expandFrom_length false E⟩
  case got => simp

end Sys2Proof.Machine

/-! ## The round trip from the records (42_expand.md R81) -/

namespace Sys2Proof.Machine

/-- The bits already counted may as well be part of the input. -/
theorem compressFrom_counted (cur : Bit) (n : Byte) (bs : List Bit) :
    compressFrom cur 0#8 (List.replicate n.toNat cur ++ bs) = compressFrom cur n bs := by
  rw [compressFrom_eq_encodeRuns, compressFrom_eq_encodeRuns]
  rfl

/-- A bit of the other value ends the run counted, and begins the next one. -/
theorem compressFrom_ends (cur : Bit) (n : Byte) (bs : List Bit) :
    compressFrom cur n ((!cur) :: bs) = n :: compressFrom (!cur) 0#8 ((!cur) :: bs) := by
  rw [compressFrom_cons, encodeBit_ends (Bool.not_ne_self cur), List.singleton_append,
    ← compressFrom_counted (!cur) 1#8]
  rfl

/-- A bit of the same value meets the full counter: the pair is emitted and the bit is counted anew. -/
theorem compressFrom_continues (cur : Bit) (bs : List Bit) :
    compressFrom cur 255#8 (cur :: bs) = 255#8 :: 0#8 :: compressFrom cur 0#8 (cur :: bs) := by
  have hfull : ¬ (255#8 : Byte) < Config.maxRun := by decide
  rw [compressFrom_cons, encodeBit_continues rfl hfull, ← compressFrom_counted cur 1#8]
  rfl

/-- Records that do not begin with 0 decode to bits that begin with the decoder's value. -/
theorem exists_expandFrom_cons (cur : Bit) {n : Byte} (hn : n ≠ 0#8) (es : List Byte) :
    ∃ bs, expandFrom cur (n :: es) = cur :: bs := by
  obtain ⟨k, hk⟩ := Nat.exists_eq_succ_of_ne_zero fun h => hn (BitVec.eq_of_toNat_eq h)
  exact ⟨_, by rw [expandFrom, hk, List.replicate_succ, List.cons_append]⟩

/-- What follows the first record of a canonical stream is canonical too, and begins with 0 only behind a 255. -/
theorem canonical_tail {n m : Byte} {es : List Byte} (h : canonical (n :: m :: es) = true) :
    canonical (m :: es) = true ∧ (m = 0#8 → n = 255#8) := by
  obtain ⟨hlast, hzeros⟩ := (canonical_cons_iff _ _).1 h
  rw [zerosContinue, Bool.and_eq_true] at hzeros
  obtain ⟨hfirst, hrest⟩ := hzeros
  refine ⟨(canonical_cons_iff _ _).2 ⟨by rwa [List.getLast?_cons_cons] at hlast, hrest⟩, ?_⟩
  simpa [or_iff_not_imp_left] using hfirst

/-- A 0 record of a canonical stream is followed by a canonical stream that does not begin with 0. -/
theorem exists_cons_of_canonical_zero_cons {es : List Byte} (h : canonical (0#8 :: es) = true) :
    ∃ k ks, es = k :: ks ∧ k ≠ 0#8 ∧ canonical es = true := by
  cases es with
  | nil => exact absurd h (by decide)
  | cons k ks =>
    obtain ⟨hks, hk⟩ := canonical_tail h
    exact ⟨k, ks, rfl, fun h0 => absurd (hk h0) (by decide), hks⟩

/-- Encoding what a canonical stream decodes to gives it back, from either value. Each record is a run that ends at the
next one, or a full counter and the 0 of its continuation pair. -/
theorem compressFrom_expandFrom (es : List Byte) (cur : Bit) (h : canonical es = true) :
    compressFrom cur 0#8 (expandFrom cur es) = es := by
  induction es using List.twoStepInduction generalizing cur with
  | nil => rfl
  | singleton n =>
    have hn : n ≠ 0#8 := by simpa using ((canonical_cons_iff n []).1 h).1
    rw [expandFrom, compressFrom_counted]
    exact if_pos hn
  | cons_cons n m es ihPair ihRecord =>
    obtain ⟨hrest, hfull⟩ := canonical_tail h
    rw [expandFrom, compressFrom_counted]
    by_cases hm : m = 0#8
    · subst hm
      obtain ⟨k, ks, rfl, hk, hks⟩ := exists_cons_of_canonical_zero_cons hrest
      obtain ⟨bs, hbs⟩ := exists_expandFrom_cons cur hk ks
      have hskip : expandFrom (!cur) (0#8 :: k :: ks) = expandFrom cur (k :: ks) := by
        rw [expandFrom, Bool.not_not]; rfl
      rw [hskip, hfull rfl, hbs, compressFrom_continues, ← hbs, ihPair cur hks]
    · obtain ⟨bs, hbs⟩ := exists_expandFrom_cons (!cur) hm es
      rw [hbs, compressFrom_ends, ← hbs, ihRecord m (!cur) hrest]

/-- 42_expand.md R81 (b). -/
theorem compress_expand_iff (es : List Byte) : compress (expand es) = es ↔ canonical es = true :=
  ⟨fun h => h ▸ canonical_compress (expand es), compressFrom_expandFrom es false⟩

/-- Settles O46: both round trips, the three streams by evaluation, and the bytes that the packing gives back. -/
theorem roundTrip : Obligations.RoundTrip := by
  refine ⟨expand_compress, compress_expand_iff, by decide, fun X => ?_⟩
  rw [expand_compress, pack_bitsOfBytes]

end Sys2Proof.Machine

/-! ## A word outside and inside `FAULTED` (60_exceptions.md R84, R88) -/

namespace Sys2Proof.Machine

/-- The phases in which 40_control.md R66 allows a command. -/
def legalIn : Instr → Phase → Bool
  | .startC, p => p == .idle
  | .startE, p => p == .idle
  | .encBit _, p => p == .runC
  | .decRec _, p => p == .runE
  | .endInput, p => p == .runC || p == .runE

/-- What a command does where it is allowed. -/
def effectOf : Instr → State → State
  | .startC, s => s.openInvocation .runC
  | .startE, s => s.openInvocation .runE
  | .encBit b, s => s.countBit b
  | .decRec n, s => s.writeRun n
  | .endInput, s => s.closeInvocation

/-- Every command is its effect behind the one phase check. -/
theorem exec_eq_guarded (i : Instr) (s : State) : exec i s = .next (s.guarded (legalIn i) (effectOf i)) := by
  cases i <;> rfl

/-- The effect of a command records no cause and sets no mark of an abandoned invocation. -/
theorem effectOf_keeps (i : Instr) (s : State) :
    (effectOf i s).cause = s.cause ∧ (effectOf i s).sink.abandoned = s.sink.abandoned := by
  cases i <;> exact ⟨rfl, rfl⟩

theorem effectOf_phase_ne_faulted (i : Instr) {s : State} (h : s.phase ≠ .faulted) :
    (effectOf i s).phase ≠ .faulted := by
  cases i with
  | startC => exact nofun
  | startE => exact nofun
  | encBit b => exact h
  | decRec n => exact h
  | endInput => exact nofun

/-- 40_control.md R66: the table of `IllegalIn` is that of the commands' phase checks. -/
theorem illegalIn_encode_iff (i : Instr) {p : Phase} (hp : p ≠ .faulted) :
    IllegalIn p ((encode i).toNat / 256) ↔ legalIn i p = false := by
  cases p with
  | idle => cases i <;> simp [IllegalIn, legalIn, encode, packFields_toNat_div]
  | runC => cases i <;> simp [IllegalIn, legalIn, encode, packFields_toNat_div]
  | runE => cases i <;> simp [IllegalIn, legalIn, encode, packFields_toNat_div]
  | faulted => exact absurd rfl hp

/-- The reserved words are those that the decoder rejects (30_encoding.md R51). -/
theorem reservedWord_iff (w : CmdWord) : ReservedWord w ↔ ∃ r, decode w = .error r := by
  rw [decodeRejectsExactlyReserved w, ReservedWord]
  omega

theorem sameSurroundings_raise (s : State) (c : Cause) : SameSurroundings s (s.raise c) :=
  ⟨rfl, rfl, rfl, rfl, rfl, rfl⟩

theorem State.illegalWord_of_ne_faulted {s : State} (h : s.phase ≠ .faulted) :
    s.illegalWord = s.raise .illegalCommand :=
  State.guarded_illegal h rfl

/-- A reserved word raises its fault or does nothing. -/
theorem State.illegalWord_cases (s : State) : s.illegalWord = s ∨ s.illegalWord = s.raise .illegalCommand := by
  by_cases hp : s.phase = .faulted
  · exact .inl (State.guarded_faulted hp)
  · exact .inr (State.illegalWord_of_ne_faulted hp)

theorem execWord_of_ok {w : CmdWord} {i : Instr} (h : decode w = .ok i) (s : State) : execWord w s = exec i s := by
  rw [execWord, h]

theorem execWord_of_error {w : CmdWord} {r : Reserved} (h : decode w = .error r) (s : State) :
    execWord w s = .next s.illegalWord := by
  rw [execWord, h]

/-- 60_exceptions.md R84: a reserved word, or a command the phase does not allow, enters the fault. -/
theorem execWord_of_illegal {s : State} {w : CmdWord} (hp : s.phase ≠ .faulted)
    (h : ReservedWord w ∨ IllegalIn s.phase (w.toNat / 256)) : execWord w s = .next (s.raise .illegalCommand) := by
  cases hw : decode w with
  | error r => rw [execWord_of_error hw, State.illegalWord_of_ne_faulted hp]
  | ok i =>
    have hreserved : ¬ ReservedWord w := by simp [reservedWord_iff, hw]
    have hillegal := h.resolve_left hreserved
    rw [← encode_of_decode hw, illegalIn_encode_iff i hp] at hillegal
    rw [execWord_of_ok hw, exec_eq_guarded, State.guarded_illegal hp hillegal]

/-- Any other word is a command that has its effect. -/
theorem execWord_of_legal {s : State} {w : CmdWord} (hp : s.phase ≠ .faulted)
    (h : ¬ (ReservedWord w ∨ IllegalIn s.phase (w.toNat / 256))) : ∃ i, execWord w s = .next (effectOf i s) := by
  obtain ⟨hreserved, hlegal⟩ := not_or.1 h
  cases hw : decode w with
  | error r => exact absurd ((reservedWord_iff w).2 ⟨r, hw⟩) hreserved
  | ok i =>
    rw [← encode_of_decode hw, illegalIn_encode_iff i hp, Bool.not_eq_false] at hlegal
    exact ⟨i, by rw [execWord_of_ok hw, exec_eq_guarded, State.guarded_legal hp hlegal]⟩

/-- Settles O20: the word is refused by its decoder or its phase check, and enters the fault, or it has its effect. -/
theorem illegalCommandExactly : Obligations.IllegalCommandExactly := by
  intro s w hp
  constructor
  · intro h
    exact ⟨_, execWord_of_illegal hp h, faultEntry_raise s _, sameSurroundings_raise s _⟩
  · intro h
    obtain ⟨i, hi⟩ := execWord_of_legal hp h
    exact ⟨_, hi, effectOf_phase_ne_faulted i hp, (effectOf_keeps i s).1⟩

/-- 60_exceptions.md R88: in `FAULTED` a word has no effect. -/
theorem execWord_of_faulted (w : CmdWord) {s : State} (h : s.phase = .faulted) : execWord w s = .next s := by
  cases hw : decode w with
  | error r => rw [execWord_of_error hw, State.illegalWord, State.guarded_faulted h]
  | ok i => rw [execWord_of_ok hw, exec_eq_guarded, State.guarded_faulted h]

/-! ## A level on `ERR` that is taken (60_exceptions.md R87 to R91) -/

theorem State.isOpen_eq_false_iff {s : State} : s.isOpen = false ↔ s.phase = .idle ∨ s.phase = .faulted := by
  unfold State.isOpen; cases s.phase <;> decide

theorem State.raiseErr_of_faulted {s : State} (h : s.phase = .faulted) (e : BitVec 2) : s.raiseErr e = s := if_pos h

theorem State.raiseErr_of_ne_faulted {s : State} (h : s.phase ≠ .faulted) (e : BitVec 2) :
    s.raiseErr e = s.raise (errCause e) := if_neg h

theorem State.takeErr_of_quiet {s : State} (h : s.err = 0#2) : s.takeErr = s := if_pos h

theorem State.takeErr_of_err {s : State} (h : s.err ≠ 0#2) : s.takeErr = (s.raiseErr s.err).settlePort := if_neg h

@[simp] theorem State.raiseErr_phase (s : State) (e : BitVec 2) : (s.raiseErr e).phase = .faulted := by
  unfold State.raiseErr; split
  · assumption
  · rfl
@[simp] theorem State.raiseErr_cur (s : State) (e : BitVec 2) : (s.raiseErr e).cur = s.cur := by
  unfold State.raiseErr; split <;> rfl
@[simp] theorem State.raiseErr_runLen (s : State) (e : BitVec 2) : (s.raiseErr e).runLen = s.runLen := by
  unfold State.raiseErr; split <;> rfl
@[simp] theorem State.raiseErr_port (s : State) (e : BitVec 2) : (s.raiseErr e).port = s.port := by
  unfold State.raiseErr; split <;> rfl
@[simp] theorem State.raiseErr_inbox (s : State) (e : BitVec 2) : (s.raiseErr e).inbox = s.inbox := by
  unfold State.raiseErr; split <;> rfl

/-- In `FAULTED` no invocation is open, so there too the sink is what fault entry makes of it. -/
@[simp] theorem State.raiseErr_sink (s : State) (e : BitVec 2) : (s.raiseErr e).sink = s.sink.abandonIf s.isOpen := by
  unfold State.raiseErr; split
  next h => rw [State.isOpen_eq_false_iff.2 (.inr h), Sink.abandonIf_false]
  · rfl

/-- What fault entry writes does not depend on the port. -/
theorem State.raiseErr_withPort (s : State) (e : BitVec 2) (p : Option CmdWord) :
    { s with port := p }.raiseErr e = { s.raiseErr e with port := p } := by
  unfold State.raiseErr; split <;> rfl

/-- Outside `FAULTED` the level that is taken enters the fault of its cause (R87, R89). -/
theorem faultEntry_takeErr {s : State} (hp : s.phase ≠ .faulted) (he : s.err ≠ 0#2) :
    FaultEntry s s.takeErr (errCause s.err) := by
  rw [State.takeErr_of_err he, State.raiseErr_of_ne_faulted hp]
  constructor <;> simp

/-- Settles O31: the boundary takes `ERR`, and the cause of each level is looked up. -/
theorem errTaken : Obligations.ErrTaken := by
  intro s hp
  have htake : ∀ {e : BitVec 2}, e ≠ 0#2 → s.err = e →
      ∃ t, boundary s = .next t ∧ FaultEntry s t (errCause e) := by
    rintro e he rfl
    exact ⟨_, boundary_of_err he, faultEntry_takeErr hp he⟩
  exact ⟨htake (by decide), htake (by decide), htake (by decide)⟩

/-- Settles O32: `ERR` is taken with and without the word, and what it writes does not depend on the port. -/
theorem errBeatsCommand : Obligations.ErrBeatsCommand := by
  intro s w he
  have htake : ∀ p, boundary { s with port := p } =
      .next ({ s.raiseErr s.err with port := p } : State).settlePort := by
    intro p
    rw [← State.raiseErr_withPort, ← State.takeErr_of_err (s := { s with port := p }) he]
    exact boundary_of_err he
  refine ⟨_, _, htake (some w), htake none, ?_⟩
  simpa using State.settlePort_port { s.raiseErr s.err with port := some w }

/-- Settles O21: in `FAULTED` neither a word nor `ERR` writes anything, and only a reset moves `phase` away from it. -/
theorem faultedUntilReset : Obligations.FaultedUntilReset := by
  refine ⟨?word, ?err, ?leave⟩
  case word =>
    intro s w hp he hw
    exact (boundary_of_word he hw).trans (execWord_of_faulted w hp)
  case err =>
    intro s hp he
    refine ⟨_, boundary_of_err he, ?_⟩
    rw [State.takeErr_of_err he, State.raiseErr_of_faulted hp]
    simp [hp]
  case leave =>
    intro s t hp h hne
    rcases registers_of_step h with hmoves | ⟨hnext, -⟩
    · exact absurd ((CauseKept.of_registerMoves hmoves).faulted hp) hne
    · exact hnext

/-- Settles O29: the waiting block gives the turn to a front end that is off. -/
theorem blockWaits : Obligations.BlockWaits := by
  intro s hinbox herr hport hfront
  rw [step_of_waits ⟨hinbox, herr, hport⟩, State.frontTurn, hfront]

/-! ## An arrival inside a step (60_exceptions.md R90; 70_reset_and_hazards.md R101) -/

/-- An `ERR` that lands outside `FAULTED` enters its fault. -/
theorem faultEntry_arrive_err {s : State} (hp : s.phase ≠ .faulted) {e : BitVec 2} (he : e ≠ 0#2) :
    FaultEntry s (s.arrive (.err e)) (errCause e) := by
  obtain ⟨hphase, hcause, hcur, hrunLen, hgot, hshared⟩ := faultEntry_takeErr (s := s.driveErr e) hp he
  exact ⟨hphase, hcause, hcur, hrunLen, hgot, hshared⟩

theorem Arrival.strikes_err_iff {e : BitVec 2} : (Arrival.err e).strikes = true ↔ e ≠ 0#2 := by
  simp [Arrival.strikes]

/-- What the sink has beyond what it had are the step's outputs. -/
theorem outputsOf_eq {s t : State} {outs : List Txn} (h : t.sink.got = s.sink.got ++ outs) : outputsOf s t = outs := by
  rw [outputsOf, h, List.drop_left]

/-- The step of a word that an `ERR` cuts short after `k` outputs. -/
theorem step_interrupt_err {s t : State} {rest : List Event} {w : CmdWord} {e : BitVec 2} (herr : s.err = 0#2)
    (hport : s.port = some w) (he : e ≠ 0#2) (h : execWord w { s with port := none, inbox := rest } = .next t)
    (k : Nat) : step { s with inbox := .interrupt k (.err e) :: rest } =
      .next (({ s with port := none, inbox := rest } : State).cutShort t k (.err e)) := by
  have hboundary : boundary { s with inbox := rest } = .next t :=
    (boundary_of_word (s := { s with inbox := rest }) herr hport).trans h
  exact boundaryCut_of_word (s := { s with inbox := rest }) herr hport (Arrival.strikes_err_iff.2 he) hboundary

/-- Settles O33: the step that is cut short has its first `k` outputs, and any first part is that of its own length. -/
theorem errInsideStep : Obligations.ErrInsideStep := by
  intro s t rest w e outs hp herr hport he h hgot
  have hcut := step_interrupt_err herr hport he h
  have houts : outputsOf { s with port := none, inbox := rest } t = outs := outputsOf_eq hgot
  have hentry : ∀ k, FaultEntry { s with sink := { s.sink with got := s.sink.got ++ outs.take k } }
      (({ s with port := none, inbox := rest } : State).cutShort t k (.err e)) (errCause e) := by
    intro k
    rw [State.cutShort, houts]
    obtain ⟨hphase, hcause, hcur, hrunLen, hsink, hshared⟩ :=
      faultEntry_arrive_err (s := ({ s with port := none, inbox := rest } : State).emit (outs.take k)) hp he
    exact ⟨hphase, hcause, hcur, hrunLen, hsink, hshared⟩
  refine ⟨fun k => ⟨_, hcut k, hentry k⟩, fun pre ⟨later, hsplit⟩ => ⟨pre.length, _, hcut _, (hentry _).got.trans ?_⟩⟩
  rw [← hsplit, List.take_left]

end Sys2Proof.Machine

/-! ## The mark of an abandoned invocation (60_exceptions.md R93; 70_reset_and_hazards.md R101, R111) -/

namespace Sys2Proof.Machine

/-- From `s` to `t` the invocation that may be open ends without success: its sink is marked, and where none is open the
sink is as it was. -/
structure Abandons (s t : State) : Prop where
  mark : t.sink.abandoned = (s.sink.abandoned || s.isOpen)
  unused : s.isOpen = false → t.sink = s.sink

theorem Abandons.of_sink_eq {s t : State} (h : t.sink = s.sink.abandonIf s.isOpen) : Abandons s t where
  mark := by rw [h, Sink.abandonIf_abandoned]
  unused hclosed := by rw [h, hclosed, Sink.abandonIf_false]

/-- Only `phase` and the sink before, and the sink after, take part. -/
theorem Abandons.congr {s s' t t' : State} (h : Abandons s t) (hp : s'.phase = s.phase) (hk : s'.sink = s.sink)
    (hk' : t'.sink = t.sink) : Abandons s' t' := by
  have hopen : s'.isOpen = s.isOpen := by rw [State.isOpen, hp, State.isOpen]
  obtain ⟨hmark, hunused⟩ := h
  constructor <;> rwa [hk', hk, hopen]

/-- What the block does from `s` to `t` sets the mark exactly where it faults. -/
structure MarksFault (s t : State) : Prop where
  fault : t.phase = .faulted → Abandons s t
  goesOn : t.phase ≠ .faulted → t.sink.abandoned = s.sink.abandoned

theorem MarksFault.of_abandons {s t : State} (hp : t.phase = .faulted) (h : Abandons s t) : MarksFault s t :=
  ⟨fun _ => h, fun hne => absurd hp hne⟩

/-- Only `phase` and the sink take part. -/
theorem MarksFault.congr {s s' t t' : State} (h : MarksFault s t) (hp : s'.phase = s.phase) (hk : s'.sink = s.sink)
    (hp' : t'.phase = t.phase) (hk' : t'.sink = t.sink) : MarksFault s' t' where
  fault hf := (h.fault (hp' ▸ hf)).congr hp hk hk'
  goesOn hne := by rw [hk', hk, h.goesOn (hp' ▸ hne)]

theorem MarksFault.refl (s : State) : MarksFault s s where
  fault hp := .of_sink_eq (by rw [State.isOpen_eq_false_iff.2 (.inr hp), Sink.abandonIf_false])
  goesOn _ := rfl

theorem marksFault_raise (s : State) (c : Cause) : MarksFault s (s.raise c) :=
  .of_abandons rfl (.of_sink_eq rfl)

/-- The phase check faults, or leaves the mark to a body that neither faults nor marks. -/
theorem marksFault_guarded (s : State) (legal : Phase → Bool) {body : State → State}
    (hphase : s.phase ≠ .faulted → (body s).phase ≠ .faulted)
    (hmark : (body s).sink.abandoned = s.sink.abandoned) : MarksFault s (s.guarded legal body) := by
  rcases s.guarded_cases legal body with ⟨-, h⟩ | ⟨hp, -, h⟩ | ⟨-, -, h⟩ <;> rw [h]
  · exact .refl s
  · exact ⟨fun hf => absurd hf (hphase hp), fun _ => hmark⟩
  · exact marksFault_raise s _

theorem marksFault_execWord {w : CmdWord} {s t : State} (h : execWord w s = .next t) : MarksFault s t := by
  rcases execWord_cases h with ⟨i, -, hi⟩ | ⟨r, -, rfl⟩
  · cases (exec_eq_guarded i s).symm.trans hi
    exact marksFault_guarded s _ (effectOf_phase_ne_faulted i) (effectOf_keeps i s).2
  · exact marksFault_guarded s _ id rfl

theorem State.takeErr_phase_of_err {s : State} (h : s.err ≠ 0#2) : s.takeErr.phase = .faulted := by
  simp [State.takeErr_of_err h]

theorem State.takeErr_sink_of_err {s : State} (h : s.err ≠ 0#2) : s.takeErr.sink = s.sink.abandonIf s.isOpen := by
  simp [State.takeErr_of_err h]

theorem marksFault_boundary {s t : State} (h : boundary s = .next t) : MarksFault s t := by
  rcases boundary_cases h with ⟨he, rfl⟩ | ⟨-, w, -, hw⟩ | ⟨-, -, rfl⟩
  · exact .of_abandons (State.takeErr_phase_of_err he) (.of_sink_eq (State.takeErr_sink_of_err he))
  · exact (marksFault_execWord hw).congr rfl rfl rfl rfl
  · obtain ⟨hphase, -, -, -, hsink⟩ := frontTurn_registers s
    exact (MarksFault.refl s).congr rfl rfl hphase hsink

/-! ## Arrivals and the mark -/

/-- An `ERR` of `0b00` only drives the level (assumption 6). -/
theorem State.arrive_of_not_strikes {s : State} {a : Arrival} (h : ¬ a.strikes = true) :
    s.arrive a = s.driveErr 0#2 := by
  cases a with
  | reset => exact absurd rfl h
  | err e =>
    obtain rfl : e = 0#2 := not_not.1 (mt Arrival.strikes_err_iff.2 h)
    exact State.takeErr_of_quiet rfl

/-- An arrival that strikes marks the sink of an open invocation. -/
theorem State.arrive_sink_of_strikes {s : State} {a : Arrival} (h : a.strikes = true) :
    (s.arrive a).sink = s.sink.abandonIf s.isOpen := by
  cases a with
  | reset => simp [State.arrive]
  | err e => exact State.takeErr_sink_of_err (s := s.driveErr e) (Arrival.strikes_err_iff.1 h)

/-- Where no invocation is open a word emits nothing. -/
theorem execWord_got_of_not_open {w : CmdWord} {s t : State} (h : execWord w s = .next t) (hs : s.isOpen = false) :
    t.sink.got = s.sink.got := by
  have hclosed : ¬ (s.phase = .runC ∨ s.phase = .runE) := by rw [← State.isOpen_iff, hs]; decide
  rcases execWord_cases h with ⟨i, -, hi⟩ | ⟨r, -, rfl⟩
  · rcases exec_cases hi with ⟨-, rfl⟩ | ⟨-, rfl⟩ | ⟨-, -, rfl⟩ | ⟨-, -, rfl⟩ | ⟨b, -, hp, -⟩ | ⟨n, -, hp, -⟩ |
      ⟨-, hp, -⟩
    · rfl
    · rfl
    · rfl
    · rfl
    · exact absurd (.inl hp) hclosed
    · exact absurd (.inr hp) hclosed
    · exact absurd hp hclosed
  · rcases s.illegalWord_cases with h | h <;> rw [h]
    rfl

/-- A step that is cut short has failed, however many of its outputs the sink has accepted. -/
theorem abandons_cutShort {w : CmdWord} {s t : State} (h : execWord w s = .next t) (k : Nat) {a : Arrival}
    (ha : a.strikes = true) : Abandons s (s.cutShort t k a) := by
  have hsink : (s.cutShort t k a).sink = (s.sink.accept ((outputsOf s t).take k)).abandonIf s.isOpen :=
    State.arrive_sink_of_strikes ha
  constructor
  · rw [hsink, Sink.abandonIf_abandoned, Sink.accept_abandoned]
  · intro hclosed
    have houts : outputsOf s t = [] := outputsOf_eq (by rw [execWord_got_of_not_open h hclosed, List.append_nil])
    rw [hsink, hclosed, houts, Sink.abandonIf_false, List.take_nil, Sink.accept, List.append_nil]

/-- A boundary that executes no word leaves the sink to what strikes after it. -/
theorem abandons_arrive_of_no_word {s t : State} {a : Arrival} (h : boundary s = .next t)
    (hs : s.err ≠ 0#2 ∨ s.port = none) (ha : a.strikes = true) : Abandons s (t.arrive a) := by
  apply Abandons.of_sink_eq
  rw [State.arrive_sink_of_strikes ha]
  rcases boundary_cases h with ⟨he, rfl⟩ | ⟨he, w, hw, -⟩ | ⟨-, -, rfl⟩
  · rw [State.isOpen_eq_false_iff.2 (.inr (State.takeErr_phase_of_err he)), Sink.abandonIf_false,
      State.takeErr_sink_of_err he]
  · exact absurd hs (by simp [he, hw])
  · obtain ⟨hphase, -, -, -, hsink⟩ := frontTurn_registers s
    rw [hsink, State.isOpen, hphase, State.isOpen]

theorem abandons_boundaryCut {k : Nat} {a : Arrival} {s u : State} (h : boundaryCut k a s = .next u)
    (ha : a.strikes = true) : Abandons s u := by
  obtain ⟨t, ht, ⟨he, hport, -, rfl⟩ | ⟨hno, rfl⟩⟩ := boundaryCut_cases h
  · obtain ⟨w, hw⟩ := Option.isSome_iff_exists.1 hport
    exact (abandons_cutShort ((boundary_of_word he hw).symm.trans ht) k ha).congr rfl rfl rfl
  · refine abandons_arrive_of_no_word ht ?_ ha
    by_cases he : s.err = 0#2
    · exact .inr (Option.not_isSome_iff_eq_none.1 fun hport => hno ⟨he, hport, ha⟩)
    · exact .inl he

/-- Where no reset arrives, a boundary with an arrival marks as one without does. -/
theorem marksFault_boundaryCut_err {k : Nat} {e : BitVec 2} {s u : State} (h : boundaryCut k (.err e) s = .next u) :
    MarksFault s u := by
  obtain ⟨t, ht, hu⟩ := boundaryCut_cases h
  by_cases ha : (Arrival.err e).strikes = true
  · have hphase : ∀ v : State, (v.arrive (.err e)).phase = .faulted := fun v =>
      State.takeErr_phase_of_err (s := v.driveErr e) (Arrival.strikes_err_iff.1 ha)
    refine .of_abandons ?_ (abandons_boundaryCut h ha)
    rcases hu with ⟨-, -, -, rfl⟩ | ⟨-, rfl⟩ <;> exact hphase _
  · rcases hu with ⟨-, -, hstrikes, -⟩ | ⟨-, rfl⟩
    · exact absurd hstrikes ha
    · rw [State.arrive_of_not_strikes ha]
      exact (marksFault_boundary ht).congr rfl rfl rfl rfl

/-! ## Steps and the mark -/

/-- A reset ends the open invocation, between commands or inside a step. -/
theorem abandons_of_resetNext {s t : State} (h : step s = .next t) (hr : ResetNext s) : Abandons s t := by
  obtain ⟨rest, hinbox | ⟨k, hinbox⟩⟩ := hr <;> rw [step_of_inbox_cons hinbox] at h
  · cases h
    exact .of_sink_eq (State.arrive_sink_of_strikes (s := { s with inbox := rest }) (a := .reset) rfl)
  · exact (abandons_boundaryCut (a := .reset) h rfl).congr rfl rfl rfl

/-- The step goes on with the invocation, or outside one: it does not fault the block, and keeps the mark or connects an
unmarked sink. -/
structure KeepsMark (s t : State) : Prop where
  phase : t.phase = .faulted → s.phase = .faulted
  mark : t.sink.abandoned = s.sink.abandoned ∨
    t.sink.abandoned = false ∧ ∃ src, .connect src ∈ s.inbox

/-- A step ends the invocation by a fault or a reset, or keeps the mark. -/
theorem step_abandons_or_keepsMark {s t : State} (h : step s = .next t) :
    (Abandons s t ∧ (t.phase = .faulted ∨ ResetNext s)) ∨ KeepsMark s t := by
  have hblock : MarksFault s t → (Abandons s t ∧ (t.phase = .faulted ∨ ResetNext s)) ∨ KeepsMark s t := by
    intro hmarks
    by_cases hp : t.phase = .faulted
    · exact .inl ⟨hmarks.fault hp, .inl hp⟩
    · exact .inr ⟨fun hf => absurd hf hp, .inl (hmarks.goesOn hp)⟩
  rcases step_cases h with ⟨-, hb⟩ | ⟨ev, rest, hinbox, hev⟩
  · exact hblock (marksFault_boundary hb)
  · rcases onEvent_cases hev with ⟨-, hb⟩ | ⟨k, a, rfl, hcut⟩ | ⟨w, -, -, rfl⟩ | ⟨-, rfl⟩ | ⟨e, -, rfl⟩ |
      ⟨rfl, -⟩ | ⟨src, rfl, rfl⟩ | ⟨f, -, rfl⟩ | ⟨-, rfl⟩
    · exact hblock ((marksFault_boundary hb).congr rfl rfl rfl rfl)
    · cases a with
      | reset =>
        have hr : ResetNext s := ⟨rest, .inr ⟨k, hinbox⟩⟩
        exact .inl ⟨abandons_of_resetNext h hr, .inr hr⟩
      | err e => exact hblock ((marksFault_boundaryCut_err hcut).congr rfl rfl rfl rfl)
    · exact .inr ⟨id, .inl rfl⟩
    · exact .inr ⟨id, .inl rfl⟩
    · exact .inr ⟨id, .inl rfl⟩
    · have hr : ResetNext s := ⟨rest, .inl hinbox⟩
      exact .inl ⟨abandons_of_resetNext h hr, .inr hr⟩
    · exact .inr ⟨id, .inr ⟨rfl, src, by simp [hinbox]⟩⟩
    · exact .inr ⟨id, .inl rfl⟩
    · exact .inr ⟨id, .inl rfl⟩

/-- Settles O53: a step that does not abandon keeps the mark, and one that does leaves the sink where none is open. -/
theorem onlyOpenInvocationsFail : Obligations.OnlyOpenInvocationsFail := by
  constructor
  · intro s t hs h ht
    rcases step_abandons_or_keepsMark h with ⟨habandons, hend⟩ | hkeeps
    · rw [habandons.mark, hs, Bool.false_or, State.isOpen_iff] at ht
      exact ⟨ht, hend⟩
    · rcases hkeeps.mark with hmark | ⟨hmark, -⟩ <;> simp [hmark, hs] at ht
  · intro s t hs hend
    have hclosed : s.isOpen = false := State.isOpen_eq_false_iff.2 hs
    rcases hend with ⟨h, hp⟩ | ⟨h, hr⟩
    · exact ((marksFault_boundary h).fault hp).unused hclosed
    · exact (abandons_of_resetNext h hr).unused hclosed

/-! ## Steps and what is still to come -/

/-- A word touches neither the ports nor what is to come, spelling a command or not. -/
theorem execWord_inbox {w : CmdWord} {s t : State} (h : execWord w s = .next t) : t.inbox = s.inbox := by
  rcases execWord_cases h with ⟨i, -, hi⟩ | ⟨r, -, rfl⟩
  · exact (commandFrame i s t hi).inbox
  · rcases s.illegalWord_cases with h | h <;> rw [h]
    rfl

@[simp] theorem State.frontTurn_inbox (s : State) : s.frontTurn.inbox = s.inbox := by
  unfold State.frontTurn
  split
  · rfl
  · rfl
  · unfold State.frontCompress
    split
    · rfl
    · split <;> rfl
  · unfold State.frontExpand
    split
    · rfl
    · split <;> rfl

@[simp] theorem State.takeErr_inbox (s : State) : s.takeErr.inbox = s.inbox := by
  unfold State.takeErr
  split
  · rfl
  · simp

@[simp] theorem State.arrive_inbox (s : State) (a : Arrival) : (s.arrive a).inbox = s.inbox := by
  cases a <;> simp [State.arrive]

theorem boundary_inbox {s t : State} (h : boundary s = .next t) : t.inbox = s.inbox := by
  rcases boundary_cases h with ⟨-, rfl⟩ | ⟨-, w, -, hw⟩ | ⟨-, -, rfl⟩
  · exact s.takeErr_inbox
  · exact (execWord_inbox hw).trans s.acceptWord_inbox
  · exact s.frontTurn_inbox

theorem boundaryCut_inbox {k : Nat} {a : Arrival} {s u : State} (h : boundaryCut k a s = .next u) :
    u.inbox = s.inbox := by
  obtain ⟨t, ht, ⟨-, -, -, rfl⟩ | ⟨-, rfl⟩⟩ := boundaryCut_cases h
  · rw [State.cutShort, State.arrive_inbox, State.emit_inbox, State.acceptWord_inbox]
  · rw [State.arrive_inbox, boundary_inbox ht]

/-- A step takes the event that comes next, and none comes in (assumption 2). -/
theorem step_inbox {s t : State} (h : step s = .next t) : t.inbox = s.inbox.tail := by
  rcases step_cases h with ⟨hinbox, hb⟩ | ⟨ev, rest, hinbox, hev⟩
  · rw [boundary_inbox hb, hinbox, List.tail_nil]
  · rw [hinbox, List.tail_cons]
    rcases onEvent_cases hev with ⟨-, hb⟩ | ⟨k, a, -, hcut⟩ | ⟨w, -, -, rfl⟩ | ⟨-, rfl⟩ | ⟨e, -, rfl⟩ |
      ⟨-, rfl⟩ | ⟨src, -, rfl⟩ | ⟨f, -, rfl⟩ | ⟨-, rfl⟩
    · exact boundary_inbox hb
    · exact boundaryCut_inbox hcut
    · rfl
    · rfl
    · rfl
    · exact State.arrive_inbox _ _
    · rfl
    · rfl
    · rfl

/-! ## A failed invocation stays without a result -/

/-- The sink of an abandoned invocation, and nothing to come that connects another. -/
structure StaysAbandoned (s : State) : Prop where
  mark : s.sink.abandoned = true
  noConnect : ∀ src, .connect src ∉ s.inbox

theorem StaysAbandoned.step {s t : State} (hs : StaysAbandoned s) (h : step s = .next t) : StaysAbandoned t where
  mark := by
    rcases step_abandons_or_keepsMark h with ⟨habandons, -⟩ | hkeeps
    · rw [habandons.mark, hs.mark, Bool.true_or]
    · rcases hkeeps.mark with hmark | ⟨-, src, hsrc⟩
      · rw [hmark, hs.mark]
      · exact absurd hsrc (hs.noConnect src)
  noConnect src hsrc := hs.noConnect src (List.mem_of_mem_tail (step_inbox h ▸ hsrc))

theorem StaysAbandoned.runSteps {k : Nat} {s t : State} (hs : StaysAbandoned s) (h : runSteps k s = .next t) :
    StaysAbandoned t := by
  induction k generalizing s with
  | zero => cases h; exact hs
  | succ k ih =>
    cases hstep : Machine.step s with
    | next u => exact ih (hs.step hstep) (runSteps_succ hstep ▸ h)
    | fault f => cases f
    | refused r => simp [Machine.runSteps, hstep] at h

theorem not_succeeded_of_abandoned {s : State} (h : s.sink.abandoned = true) (bytes : List Byte) :
    ¬ Succeeded s bytes := by
  intro hsucceeded
  cases (Sink.output_of_abandoned h).symm.trans hsucceeded.result

/-- Settles O52: the step that faults or resets an open invocation marks its sink, and the mark stays through any run. -/
theorem failedInvocationHasNoResult : Obligations.FailedInvocationHasNoResult := by
  constructor
  · intro s t hs h hend
    have habandons : Abandons s t := by
      rcases hend with hp | hr
      · rcases step_abandons_or_keepsMark h with ⟨habandons, -⟩ | hkeeps
        · exact habandons
        · exact absurd (hkeeps.phase hp) (ne_faulted_of_open hs)
      · exact abandons_of_resetNext h hr
    have hmark : t.sink.abandoned = true := by rw [habandons.mark, State.isOpen_iff.2 hs, Bool.or_true]
    exact ⟨hmark, Sink.output_of_abandoned hmark, not_succeeded_of_abandoned hmark⟩
  · intro k s t hs hno h
    have hmark := (StaysAbandoned.runSteps ⟨hs, hno⟩ h).mark
    exact ⟨Sink.output_of_abandoned hmark, not_succeeded_of_abandoned hmark⟩

end Sys2Proof.Machine

/-! ## The reset event (70_reset_and_hazards.md R101) -/

namespace Sys2Proof.Machine

/-- `STATUS` is a function of the registers (10_state.md R18). -/
theorem State.status_eq_of_registers_eq {s t : State} (h : t.registers = s.registers) : t.status = s.status := by
  obtain ⟨hphase, hcur, hrunLen, hcause⟩ := State.registers_eq_iff.1 h
  rw [State.status, hphase, hcur, hrunLen, hcause, State.status]

/-- The level on `ERR` outlasts a reset (assumptions 4 and 13). -/
@[simp] theorem State.arrive_reset_err (s : State) : (s.arrive .reset).err = s.err := by
  simp [State.arrive]

theorem State.arrive_reset_sink (s : State) : (s.arrive .reset).sink = s.sink.abandonIf s.isOpen :=
  State.arrive_sink_of_strikes rfl

/-- A level on `ERR` outside `FAULTED` enters its fault at the next boundary (60_exceptions.md R89). -/
theorem exists_boundary_faultEntry {s : State} (hp : s.phase ≠ .faulted) {e : BitVec 2} (herr : s.err = e)
    (he : e ≠ 0#2) : ∃ t, boundary s = .next t ∧ FaultEntry s t (errCause e) := by
  subst herr
  exact ⟨_, boundary_of_err he, faultEntry_takeErr hp he⟩

/-- The reset values of 10_state.md R23, whatever the registers were. -/
theorem State.arrive_reset_values (s : State) :
    (s.arrive .reset).phase = .idle ∧ (s.arrive .reset).cur = false ∧ (s.arrive .reset).runLen = 0#8 ∧
      (s.arrive .reset).cause = .noFault :=
  State.registers_eq_iff.1 s.arrive_reset_registers

theorem State.arrive_reset_status (s : State) : (s.arrive .reset).status = 0x0000#16 :=
  State.status_eq_of_registers_eq s.arrive_reset_registers

/-- Settles O13: reset puts the registers at their reset values, and in `IDLE` a level on `ERR` is taken. -/
theorem resetEvent : Obligations.ResetEvent := by
  intro s rest hinbox
  obtain ⟨hphase, hcur, hrunLen, hcause⟩ := State.arrive_reset_values { s with inbox := rest }
  have hsink := State.arrive_reset_sink { s with inbox := rest }
  have herr := State.arrive_reset_err { s with inbox := rest }
  refine ⟨_, step_of_inbox_cons hinbox, hphase, hcur, hrunLen, hcause, State.arrive_reset_status _, ?got, ?shared,
    herr, State.arrive_inbox _ _, ?fault⟩
  case got => rw [hsink, Sink.abandonIf_got]
  case shared => rw [hsink, Sink.abandonIf_shared]
  case fault => exact exists_boundary_faultEntry (by rw [hphase]; decide) herr

/-- The step of a word that an arrival cuts short after `k` outputs. -/
theorem step_interrupt_of_strikes {s t : State} {rest : List Event} {w : CmdWord} {k : Nat} {a : Arrival}
    (hinbox : s.inbox = .interrupt k a :: rest) (herr : s.err = 0#2) (hport : s.port = some w)
    (ha : a.strikes = true) (h : execWord w { s with inbox := rest, port := none } = .next t) :
    step s = .next (({ s with inbox := rest, port := none } : State).cutShort t k a) := by
  have hboundary : boundary { s with inbox := rest } = .next t :=
    (boundary_of_word (s := { s with inbox := rest }) herr hport).trans h
  exact (step_of_inbox_cons hinbox).trans
    (boundaryCut_of_word (s := { s with inbox := rest }) herr hport ha hboundary)

/-- Settles O14: the step has its first `k` outputs, and reset then marks the sink of an open invocation. -/
theorem resetInsideStep : Obligations.ResetInsideStep := by
  intro s t rest k w outs hinbox herr hport h hgot
  have hcut := step_interrupt_of_strikes hinbox herr hport (a := .reset) rfl h
  rw [State.cutShort, outputsOf_eq (s := { s with inbox := rest, port := none }) hgot] at hcut
  obtain ⟨hphase, hcur, hrunLen, hcause⟩ := State.arrive_reset_values
    (({ s with inbox := rest, port := none } : State).emit (outs.take k))
  refine ⟨_, hcut, ?sink, hphase, hcur, hrunLen, hcause, State.arrive_inbox _ _⟩
  rw [State.arrive_reset_sink, Bool.or_assoc]
  rfl

end Sys2Proof.Machine

/-! ## Where the machine stops (70_reset_and_hazards.md R105) -/

namespace Sys2Proof.Machine

theorem execWord_answers (w : CmdWord) (s : State) : ∃ t, execWord w s = .next t := by
  cases hw : decode w with
  | ok i => rw [execWord_of_ok hw]; exact exec_answers i s
  | error r => exact ⟨_, execWord_of_error hw s⟩

theorem boundary_answers (s : State) : ∃ t, boundary s = .next t := by
  by_cases herr : s.err = 0#2
  · cases hport : s.port with
    | none => exact ⟨_, boundary_of_empty herr hport⟩
    | some w => rw [boundary_of_word herr hport]; exact execWord_answers w _
  · exact ⟨_, boundary_of_err herr⟩

theorem boundaryCut_answers (k : Nat) (a : Arrival) (s : State) : ∃ t, boundaryCut k a s = .next t := by
  obtain ⟨t, ht⟩ := boundary_answers s
  simp only [boundaryCut, ht]
  split <;> exact ⟨_, rfl⟩

/-- The host presents a word while another stands on the port. -/
def Overwrites (s : State) : Prop := s.port.isSome ∧ ∃ w rest, s.inbox = .present w :: rest

theorem step_of_overwrites {s : State} (h : Overwrites s) : step s = .refused .commandOverwritten := by
  obtain ⟨hport, w, rest, hinbox⟩ := h
  rw [step_of_inbox_cons hinbox]
  exact if_pos hport

/-- Every other event has its effect. -/
theorem step_answers {s : State} (h : ¬ Overwrites s) : ∃ t, step s = .next t := by
  cases hinbox : s.inbox with
  | nil => rw [step_of_inbox_nil hinbox]; exact boundary_answers s
  | cons ev rest =>
    rw [step_of_inbox_cons hinbox]
    cases ev with
    | boundary => exact boundary_answers _
    | interrupt k a => exact boundaryCut_answers k a _
    | present w => exact ⟨_, if_neg fun hport => h ⟨hport, w, rest, hinbox⟩⟩
    | withdraw => exact ⟨_, rfl⟩
    | driveErr e => exact ⟨_, rfl⟩
    | reset => exact ⟨_, rfl⟩
    | connect src => exact ⟨_, rfl⟩
    | setFront f => exact ⟨_, rfl⟩
    | shareSink => exact ⟨_, rfl⟩

/-- Settles O30: a step is refused where a word is presented over another, and answers everywhere else. -/
theorem onlyOverwritingIsRefused : Obligations.OnlyOverwritingIsRefused := by
  intro s
  refine ⟨nofun, fun r => ⟨fun hr => ?_, ?_⟩⟩
  · by_cases h : Overwrites s
    · cases (step_of_overwrites h).symm.trans hr
      exact ⟨rfl, h⟩
    · obtain ⟨t, ht⟩ := step_answers h
      cases ht.symm.trans hr
  · rintro ⟨rfl, h⟩
    exact step_of_overwrites h

end Sys2Proof.Machine

/-! ## A sink used again (70_reset_and_hazards.md R106) -/

namespace Sys2Proof.Machine

theorem Sink.output_of_shared {k : Sink} (h : k.shared = true) : k.output = none := by
  simp [Sink.output, h]

theorem Sink.written_of_shared {k : Sink} (h : k.shared = true) : k.written = none := by
  simp [Sink.written, h]

/-- No command takes the mark of a shared sink away. -/
theorem exec_keeps_shared {i : Instr} {s t : State} (h : exec i s = .next t) (hs : s.sink.shared = true) :
    t.sink.shared = true := by
  rcases exec_cases h with ⟨-, rfl⟩ | ⟨-, rfl⟩ | ⟨-, -, rfl⟩ | ⟨-, -, rfl⟩ | ⟨b, -, -, rfl⟩ | ⟨n, -, -, rfl⟩ |
    ⟨-, -, rfl⟩
  · exact hs
  · exact hs
  · simp [hs]
  · simp [hs]
  all_goals exact hs

theorem execAll_keeps_shared {is : List Instr} {s t : State} (h : execAll is s = .next t)
    (hs : s.sink.shared = true) : t.sink.shared = true := by
  induction is generalizing s with
  | nil => cases h; exact hs
  | cons i is ih =>
    obtain ⟨u, hu⟩ := exec_answers i s
    exact ih (execAll_cons hu ▸ h) (exec_keeps_shared hu hs)

/-- A sink that is not fresh is marked when an invocation opens on it (assumptions 7 and 21). -/
theorem Sink.enter_shared_of_used {k : Sink} (h : k.got ≠ [] ∨ k.abandoned = true) : k.enter.shared = true := by
  rcases h with h | h <;> simp [h]

theorem exec_start_of_idle (m : Mode) {s : State} (h : s.phase = .idle) :
    ∃ p, exec m.start s = .next (s.openInvocation p) := by
  cases m with
  | compress => exact ⟨_, exec_startC_of_idle h⟩
  | expand => exact ⟨_, exec_startE_of_idle h⟩

/-- Settles O34: the START marks the sink, and no command takes the mark away. -/
theorem sharedSinkHasNoOutput : Obligations.SharedSinkHasNoOutput := by
  intro m is s t hp hused h
  obtain ⟨p, hstart⟩ := exec_start_of_idle m hp
  rw [execAll_cons hstart] at h
  have hshared := execAll_keeps_shared h (Sink.enter_shared_of_used hused)
  exact ⟨Sink.output_of_shared hshared, Sink.written_of_shared hshared⟩

end Sys2Proof.Machine

/-! ## Where a result comes from (70_reset_and_hazards.md R111) -/

namespace Sys2Proof.Machine

/-- A sink is closed where it has accepted one `CLOSE`, the last of its transactions. -/
theorem stageOf_eq_closed_iff {ts : List Txn} :
    stageOf ts = .closed ↔ ∃ before, ts = before ++ [.close] ∧ .close ∉ before := by
  constructor
  · intro h
    induction ts with
    | nil => cases h
    | cons t ts ih =>
      cases t with
      | close =>
        cases ts with
        | nil => exact ⟨[], rfl, List.not_mem_nil⟩
        | cons _ _ => cases h
      | wbit b =>
        obtain ⟨before, rfl, hbefore⟩ := ih h
        exact ⟨.wbit b :: before, rfl, by simpa using hbefore⟩
      | wrec n =>
        obtain ⟨before, rfl, hbefore⟩ := ih h
        exact ⟨.wrec n :: before, rfl, by simpa using hbefore⟩
  · rintro ⟨before, rfl, hbefore⟩
    exact stageOf_append_close hbefore

/-- Transactions without a `CLOSE` that leave a sink closed are none. -/
theorem eq_nil_of_stageOf_append_closed {ts us : List Txn} (hus : .close ∉ us)
    (h : stageOf (ts ++ us) = .closed) : us = [] := by
  obtain ⟨before, heq, -⟩ := stageOf_eq_closed_iff.1 h
  rcases us.eq_nil_or_concat' with hnil | ⟨vs, v, rfl⟩
  · exact hnil
  · rw [← List.append_assoc] at heq
    obtain ⟨-, hlast⟩ := List.append_inj' heq rfl
    exact absurd (by simp [hlast]) hus

/-- A result after is the result before. -/
def NoNewResult (s t : State) : Prop := ∀ bytes, t.sink.output = some bytes → s.sink.output = some bytes

theorem noNewResult_of_sink_eq {s t : State} (h : t.sink = s.sink) : NoNewResult s t := fun _ hout => h ▸ hout

theorem noNewResult_of_output_none {s t : State} (h : t.sink.output = none) : NoNewResult s t :=
  fun _ hout => nomatch h.symm.trans hout

/-- What abandons an invocation that is open leaves no result, and else it leaves the sink alone. -/
theorem Abandons.noNewResult {s t : State} (h : Abandons s t) : NoNewResult s t := by
  cases hopen : s.isOpen with
  | false => exact noNewResult_of_sink_eq (h.unused hopen)
  | true => exact noNewResult_of_output_none (Sink.output_of_abandoned (by rw [h.mark, hopen, Bool.or_true]))

theorem noNewResult_raise (s : State) (c : Cause) : NoNewResult s (s.raise c) :=
  Abandons.noNewResult (.of_sink_eq rfl)

/-- A sink on which an invocation opens is empty or marked. -/
theorem Sink.output_enter (k : Sink) : k.enter.output = none := by
  by_cases hgot : k.got = []
  · simp [Sink.output, hgot, stageOf]
  · exact Sink.output_of_shared (Sink.enter_shared_of_used (.inl hgot))

/-- A sink that accepts no `CLOSE` gets no result. -/
theorem noNewResult_of_accept {s t : State} {ts : List Txn} (hsink : t.sink = s.sink.accept ts)
    (hts : .close ∉ ts) : NoNewResult s t := by
  intro bytes hout
  obtain ⟨-, -, hstage, -⟩ := Sink.output_eq_some.1 hout
  rw [hsink, Sink.accept_got] at hstage
  obtain rfl := eq_nil_of_stageOf_append_closed hts hstage
  rwa [hsink, Sink.accept, List.append_nil] at hout

/-- Of the commands only `END`, where it is allowed, gives a result. -/
theorem exec_noNewResult_or_end {i : Instr} {s t : State} (h : exec i s = .next t) :
    NoNewResult s t ∨ (i = .endInput ∧ (s.phase = .runC ∨ s.phase = .runE) ∧ t = s.closeInvocation) := by
  rcases exec_cases h with ⟨-, rfl⟩ | ⟨-, rfl⟩ | ⟨-, -, rfl⟩ | ⟨-, -, rfl⟩ | ⟨b, -, -, rfl⟩ | ⟨n, -, -, rfl⟩ | hend
  · exact .inl (noNewResult_of_sink_eq rfl)
  · exact .inl (noNewResult_raise s _)
  · exact .inl (noNewResult_of_output_none s.sink.output_enter)
  · exact .inl (noNewResult_of_output_none s.sink.output_enter)
  · exact .inl (noNewResult_of_accept (ts := (encodeBit b s.cur s.runLen).2.2.map .wrec) rfl (by simp))
  · exact .inl (noNewResult_of_accept (ts := repeatBit n s.cur) rfl (by simp [repeatBit]))
  · exact .inr hend

/-- From `s` to `t` an `END` is accepted in `RUN_C` or `RUN_E` with `ERR` quiet, and completes. -/
structure EndCompletes (s t : State) : Prop where
  opened : s.phase = .runC ∨ s.phase = .runE
  err : s.err = 0#2
  port : s.port = some (encode .endInput)
  phase : t.phase = .idle
  cause : t.cause = s.cause

theorem boundary_noNewResult_or_end {s t : State} (h : boundary s = .next t) :
    NoNewResult s t ∨ EndCompletes s t := by
  rcases boundary_cases h with ⟨he, rfl⟩ | ⟨he, w, hport, hw⟩ | ⟨-, -, rfl⟩
  · exact .inl (Abandons.noNewResult (.of_sink_eq (State.takeErr_sink_of_err he)))
  · rcases execWord_cases hw with ⟨i, hi, hexec⟩ | ⟨r, -, rfl⟩
    · rcases exec_noNewResult_or_end hexec with hno | ⟨rfl, hopen, rfl⟩
      · exact .inl hno
      · exact .inr ⟨hopen, he, by rw [hport, encode_of_decode hi], rfl, rfl⟩
    · rcases s.acceptWord.illegalWord_cases with hw | hw <;> rw [hw]
      · exact .inl (noNewResult_of_sink_eq rfl)
      · exact .inl (noNewResult_raise s.acceptWord _)
  · obtain ⟨-, -, -, -, hsink⟩ := frontTurn_registers s
    exact .inl (noNewResult_of_sink_eq hsink)

/-- An arrival abandons what is open, or it is an `ERR` of `0b00` and stops nothing. -/
theorem boundaryCut_noNewResult_or_end {k : Nat} {a : Arrival} {s u : State} (h : boundaryCut k a s = .next u) :
    NoNewResult s u ∨ EndCompletes s u := by
  by_cases ha : a.strikes = true
  · exact .inl (abandons_boundaryCut h ha).noNewResult
  · obtain ⟨t, ht, ⟨-, -, hstrikes, -⟩ | ⟨-, rfl⟩⟩ := boundaryCut_cases h
    · exact absurd hstrikes ha
    · rw [State.arrive_of_not_strikes ha]
      rcases boundary_noNewResult_or_end ht with hno | ⟨hopen, he, hport, hphase, hcause⟩
      · exact .inl hno
      · exact .inr ⟨hopen, he, hport, hphase, hcause⟩

/-- A step leaves at most the result it found, or an `END` completes in it. -/
theorem step_noNewResult_or_end {s t : State} (h : step s = .next t) : NoNewResult s t ∨ EndCompletes s t := by
  rcases step_cases h with ⟨-, hb⟩ | ⟨ev, rest, hinbox, hev⟩
  · exact boundary_noNewResult_or_end hb
  · have hblock : NoNewResult { s with inbox := rest } t ∨ EndCompletes { s with inbox := rest } t →
        NoNewResult s t ∨ EndCompletes s t :=
      Or.imp id fun ⟨hopen, he, hport, hphase, hcause⟩ => ⟨hopen, he, hport, hphase, hcause⟩
    rcases onEvent_cases hev with ⟨-, hb⟩ | ⟨k, a, -, hcut⟩ | ⟨w, -, -, rfl⟩ | ⟨-, rfl⟩ | ⟨e, -, rfl⟩ |
      ⟨rfl, -⟩ | ⟨src, -, rfl⟩ | ⟨f, -, rfl⟩ | ⟨-, rfl⟩
    · exact hblock (boundary_noNewResult_or_end hb)
    · exact hblock (boundaryCut_noNewResult_or_end hcut)
    · exact .inl (noNewResult_of_sink_eq rfl)
    · exact .inl (noNewResult_of_sink_eq rfl)
    · exact .inl (noNewResult_of_sink_eq rfl)
    · exact .inl (abandons_of_resetNext h ⟨rest, .inl hinbox⟩).noNewResult
    · exact .inl (noNewResult_of_output_none (by simp [Sink.output, stageOf]))
    · exact .inl (noNewResult_of_sink_eq rfl)
    · exact .inl (noNewResult_of_output_none (Sink.output_of_shared rfl))

/-- `END` gives a result on a sink that is neither marked nor closed. -/
theorem State.closeInvocation_output {s : State} (hshared : s.sink.shared = false)
    (habandoned : s.sink.abandoned = false) (hopen : .close ∉ s.sink.got) :
    s.closeInvocation.sink.output = some (pack s.closeInvocation.sink.bits) := by
  refine Sink.output_eq_some.2 ⟨hshared, habandoned, ?_, rfl⟩
  have hpending : .close ∉ s.pendingRecord := fun h => nomatch (State.mem_pendingRecord h).2
  rw [State.closeInvocation_got, ← List.append_assoc]
  exact stageOf_append_close (by simp [hopen, hpending])

/-- Settles O54: a step leaves no new result but by an `END` that completes, and that `END` closes the sink. -/
theorem resultExactlyByEnd : Obligations.ResultExactlyByEnd := by
  constructor
  · intro s t bytes hnone h hout
    rcases step_noNewResult_or_end h with hno | ⟨hopen, he, hport, hphase, hcause⟩
    · cases hnone.symm.trans (hno bytes hout)
    · exact ⟨hopen, he, hport, hphase, hcause⟩
  · intro s hopen hshared habandoned hclose
    have hout := State.closeInvocation_output hshared habandoned hclose
    exact ⟨_, _, exec_endInput_of_open hopen, rfl, hout, fun hcause => ⟨rfl, hcause, hout⟩⟩

end Sys2Proof.Machine
